-- ==== Sys2Proof/Word.lean ====
section
/-! DEFINITION. The machine's words: a byte of the BYTE space (20 R46), a register of the window and an
address (10 R17, 20 R45), and a cell of the SAMPLE space (20 R47). Bit 0 is the least significant
bit of each (00 R9). -/

namespace Sys2Proof

/-- A byte: one cell of the BYTE space. -/
abbrev Byte := BitVec 8

/-- A 32-bit register of the window, a command word, or an address of either space. -/
abbrev Word := BitVec 32

/-- A 64-bit pattern: one cell of the SAMPLE space. -/
abbrev Cell := BitVec 64

end Sys2Proof
end

