-- ==== Sys2Proof/Syntax.lean ====
section
/-! DEFINITION. The commands of PCMCORE v1: one constructor per row of spec/opcode_table.json (30 R71). -/

namespace Sys2Proof

/-- A command with the fields its operation admits (30 R71). REP (R66), STRICT (R67) and FILL (R68)
are one bit each and CH (R70) is 16 bits; every value of every field is legal, so the types already
say that a command is well formed. -/
inductive Instr where
  /-- NOP: no operation beyond the result prologue (40 R79). -/
  | nop
  /-- VALIDATE: format descriptor validation (40 R80). -/
  | validate
  /-- DECODE: bytes to samples of channel `ch` (41 R86). -/
  | decode (rep strict : Bool) (ch : BitVec 16)
  /-- ENCODE: samples of channel `ch` to bytes (42 R101). -/
  | encode (rep fill : Bool) (ch : BitVec 16)
  deriving DecidableEq, Repr

end Sys2Proof
end

