-- ==== Sys2Proof/WellFormed.lean ====
section
/-! DEFINITION. Which command words are legal (30 R69, R71, R74), stated twice as the spec states it: by the fields
each operation admits, and by the match and mask pairs of R71's table. Neither uses the decoder. -/

namespace Sys2Proof

/-- OP is one of the four defined operations (30 R71): OP 0x4 to 0xF is reserved. -/
def opDefined (w : Word) : Bool := (w &&& 0xF).toNat < 4

/-- RSV, bits 15:7, is 0 (30 R69). -/
def reservedClear (w : Word) : Bool := w &&& 0xFF80 == 0

/-- REP, STRICT, FILL and CH are 0 where the operation does not admit them (30 R71): all four on NOP
and VALIDATE, FILL on DECODE, STRICT on ENCODE. A reserved OP is not this check's concern. -/
def fieldsAdmitted (w : Word) : Bool :=
  let op := (w &&& 0xF).toNat
  if op ≤ 1 then w &&& 0xFFFF0070 == 0
  else if op = 2 then w &&& 0x40 == 0
  else if op = 3 then w &&& 0x20 == 0
  else true

/-- A command word is well formed when it passes all three checks (30 R71, R74). -/
def wellFormedWord (w : Word) : Bool := opDefined w && reservedClear w && fieldsAdmitted w

/-- One row of the match and mask table of 30 R71. -/
structure OpcodeRow where
  /-- the mnemonic, as spec/opcode_table.json spells it -/
  mnemonic : String
  /-- the value of the fixed bits -/
  matchBits : Word
  /-- which bits are fixed -/
  mask : Word
  deriving DecidableEq, Repr

/-- "A word w spells the instruction when (w AND mask) = match" (30 R71). -/
def OpcodeRow.spells (r : OpcodeRow) (w : Word) : Bool := w &&& r.mask == r.matchBits

/-- The row of each command (30 R71). -/
def Instr.row : Instr → OpcodeRow
  | .nop => ⟨"NOP", 0x00000000, 0xFFFFFFFF⟩
  | .validate => ⟨"VALIDATE", 0x00000001, 0xFFFFFFFF⟩
  | .decode _ _ _ => ⟨"DECODE", 0x00000002, 0x0000FFCF⟩
  | .encode _ _ _ => ⟨"ENCODE", 0x00000003, 0x0000FFAF⟩

/-- The four rows of R71's table. -/
def opcodeRows : List OpcodeRow :=
  [Instr.nop.row, Instr.validate.row, (Instr.decode false false 0).row, (Instr.encode false false 0).row]

/-- "Every other word is illegal" (30 R71): a word is legal when some row spells it. -/
def legalWord (w : Word) : Bool := opcodeRows.any (·.spells w)

end Sys2Proof
end

