-- ==== Sys2Proof/Decode.lean ====
section
/-! DEFINITION. The command decoder of 30 R72, total on every 32-bit word, and the encoder of 30 R76. -/

namespace Sys2Proof

/-- OP, bits 3:0 of a command word (30 R65). -/
def cmdOp (w : Word) : BitVec 4 := w.extractLsb' 0 4

/-- REP, bit 4 (30 R65, R66). -/
def cmdRep (w : Word) : Bool := w.getLsbD 4

/-- STRICT, bit 5 (30 R65, R67). -/
def cmdStrict (w : Word) : Bool := w.getLsbD 5

/-- FILL, bit 6 (30 R65, R68). -/
def cmdFill (w : Word) : Bool := w.getLsbD 6

/-- RSV, bits 15:7 (30 R65, R69). -/
def cmdRsv (w : Word) : BitVec 9 := w.extractLsb' 7 9

/-- CH, bits 31:16 (30 R65, R70). -/
def cmdCh (w : Word) : BitVec 16 := w.extractLsb' 16 16

/-- The decoder's answer (30 R72): an operation with its fields, or the IllegalCommand verdict with the
ERRINFO value that says why. -/
inductive Decoded where
  /-- a legal command -/
  | op (i : Instr)
  /-- an illegal word, rejected with the ERRINFO bits of 30 R72 -/
  | illegal (info : Word)
  deriving DecidableEq, Repr

/-- A field the operation does not admit is set (30 R72): REP, STRICT, FILL or CH on NOP and VALIDATE, FILL on
DECODE, STRICT on ENCODE. -/
def cmdNotAdmitted (w : Word) : Bool :=
  match (cmdOp w).toNat with
  | 0 | 1 => cmdRep w || cmdStrict w || cmdFill w || cmdCh w != 0
  | 2 => cmdFill w
  | 3 => cmdStrict w
  | _ => false

/-- The ERRINFO value of 30 R72: bit 0 a reserved OP, bit 1 a set RSV bit, bit 2 a field not admitted. -/
def cmdInfo (w : Word) : Word :=
  (if (cmdOp w).toNat ≥ 4 then 1 else 0) ||| (if cmdRsv w != 0 then 2 else 0)
    ||| (if cmdNotAdmitted w then 4 else 0)

/-- DecodeCmd of 30 R72. -/
def decodeCmd (w : Word) : Decoded :=
  if cmdInfo w != 0 then .illegal (cmdInfo w)
  else match (cmdOp w).toNat with
    | 0 => .op .nop
    | 1 => .op .validate
    | 2 => .op (.decode (cmdRep w) (cmdStrict w) (cmdCh w))
    | _ => .op (.encode (cmdRep w) (cmdFill w) (cmdCh w))

/-- A flag shifted to bit `k` of a word. -/
def flagAt (b : Bool) (k : Nat) : Word := if b then 1#32 <<< k else 0

/-- The word of a command (30 R76): `(ch << 16) | (S << 5) | (I << 4) | 0x2` for DECODE and
`(ch << 16) | (Z << 6) | (I << 4) | 0x3` for ENCODE. -/
def encode : Instr → Word
  | .nop => 0x00000000
  | .validate => 0x00000001
  | .decode rep strict ch => (ch.setWidth 32 <<< 16) ||| flagAt strict 5 ||| flagAt rep 4 ||| 0x2
  | .encode rep fill ch => (ch.setWidth 32 <<< 16) ||| flagAt fill 6 ||| flagAt rep 4 ||| 0x3

/-- The host's numbering of a table row's word: bit 0 is the least significant bit of the one 32-bit command
word (30 R65, R75). Bits at `nbits` and above are 0; a row of more than 32 bits does not exist (log entry 14). -/
def tableWord (nbits w : Nat) : Word := BitVec.ofNat 32 (w % 2 ^ nbits)

/-- What the decoder reads from a command word given as a number, or none where it refuses. -/
def decodeTableWord (nbits w : Nat) : Option Instr :=
  if 32 < nbits then none
  else match decodeCmd (tableWord nbits w) with
    | .op i => some i
    | .illegal _ => none

end Sys2Proof
end

