-- ==== Sys2Proof/Config.lean ====
section
/-! DEFINITION. What the platform fixes and what the spec leaves open: the free values of both memories
at power-on (70 R143, 93 I11) and the default sizes of the two spaces (00 R6, R7). -/

namespace Sys2Proof

/-- What byte cell `a` holds at power-on, before anything has written it: any byte (70 R143, I11).
A FREE VALUE: no body, so nothing can be proved about it (log entry 1). -/
opaque Config.powerOnByte : Nat → Byte

/-- What sample cell `i` holds at power-on, before anything has written it: any 64-bit pattern
(70 R143, I11). A FREE VALUE: no body, so nothing can be proved about it (log entry 1). -/
opaque Config.powerOnSample : Nat → Cell

/-- The address of the last byte cell when BYTE_SPACE_SIZE has the spec's default 2^32 (00 R6). -/
def Config.defaultByteTop : Word := 0xFFFFFFFF

/-- The index of the last sample cell when SAMPLE_SPACE_SIZE has the spec's default 2^32 (00 R7). -/
def Config.defaultSampleTop : Word := 0xFFFFFFFF

end Sys2Proof
end

