-- ==== Sys2Proof/Machine/State.lean ====
section
/-! DEFINITION. The state of PCMCORE v1 (10 R14): the fields of the register window, the BYTE and SAMPLE
memories, the two OPEN size parameters, and the host's side of the bus; and the state after reset (70 R142). -/

namespace Sys2Proof.Machine

/-- Why the machine stops with a fault. The spec's own faults (60 R121) are NOT here: they are results a command
leaves in STATUS and ERRINFO, and the machine goes on (60 R128, R130). -/
inductive Fault where
  /-- Raised by a HOST read or write of a byte cell outside the BYTE space (20 R45: no such address exists).
  Safe: no command raises it, and the machine stops where the spec gives no behaviour (log entry 7). -/
  | noSuchByteCell (a : Word)
  /-- Raised by a HOST read or write of a sample cell outside the SAMPLE space (20 R45). Safe, as above
  (log entry 7). -/
  | noSuchSampleCell (a : Word)
  deriving DecidableEq, Repr

/-- Why the machine refuses a step. -/
inductive Refusal where
  /-- Raised by an arm of exec whose instruction has no meaning yet. Safe. No arm raises it: every instruction of
  the table has its meaning. -/
  | notModelled (mnemonic : String)
  /-- Raised by a HOST register access at an offset that is not a multiple of 4 in 0x00 to 0x3C: an access the
  host is assumed never to make (10 R18, 93 I15: refuse). Safe (log entry 6). -/
  | offWindow (off : Nat)
  deriving DecidableEq, Repr

/-- The kinds of fault a command can report (60 R121). -/
inductive FaultCode where
  | illegalCommand
  | invalidFormat
  | formatNotValidated
  | channelOutOfRange
  | truncatedInput
  | addressRange
  deriving DecidableEq, Repr

/-- One transaction of the host (70 R149, 30 R77). Log entry 3. -/
inductive HostTxn where
  /-- HostRead(off), 10 R18 -/
  | regRead (off : Nat)
  /-- HostWrite(off, v), 10 R18; at offset 0x00 it runs one command, 30 R73 -/
  | regWrite (off : Nat) (v : Word)
  /-- the host reads byte cell `a` between commands, 20 R59 -/
  | byteRead (a : Word)
  /-- the host writes byte cell `a` between commands, 20 R59 -/
  | byteWrite (a : Word) (v : Byte)
  /-- the host reads sample cell `a` between commands, 20 R59 -/
  | sampleRead (a : Word)
  /-- the host writes sample cell `a` between commands, 20 R59 -/
  | sampleWrite (a : Word) (v : Cell)
  /-- the platform asserts reset between commands, 70 R141 -/
  | reset
  deriving DecidableEq, Repr

/-- What a read of the host returns: a register, a byte cell or a sample cell. -/
inductive HostValue where
  | word (v : Word)
  | byte (v : Byte)
  | cell (v : Cell)
  deriving DecidableEq, Repr

/-- A memory of `w`-bit cells: the cells something has written, as (address, value) pairs, addresses strictly
rising. A cell not listed has no value of its own here; what it reads as is `State.memRead`'s and
`State.smpRead`'s concern (log entry 1). `Memory 8` is a list of `Host.Cell`. -/
abbrev Memory (w : Nat) := List (Nat × BitVec w)

/-- The fields of STATUS that exist (10 R22); its reserved bits read 0 and are not stored (log entry 12). -/
structure Status where
  /-- bit 0: the descriptor registers hold a validated descriptor (10 R23) -/
  valid : Bool
  /-- bit 1: the last command faulted (10 R24) -/
  err : Bool
  /-- bit 2: the last DECODE ignored a trailing partial frame (10 R25) -/
  trunc : Bool
  /-- bit 3: the last ENCODE clipped a sample (10 R26) -/
  clip : Bool
  /-- bits 11:8: the fault code of the last command (10 R27) -/
  errcode : BitVec 4
  deriving DecidableEq, Repr

/-- The machine's state (10 R14). -/
structure State where
  /-- STATUS (10 R22) -/
  status : Status
  /-- FMT0.BITS, bits 7:0 (10 R28, R29) -/
  bits : BitVec 8
  /-- FMT0.ORDER, bit 8: true is BigEndian (10 R28, R30) -/
  order : Bool
  /-- FMT0.SIGNED, bit 9 (10 R28, R31) -/
  signed : Bool
  /-- FMT1.CHANNELS, bits 15:0 (10 R32) -/
  channels : BitVec 16
  /-- RATE_LO (10 R33) -/
  rateLo : Word
  /-- RATE_HI (10 R33) -/
  rateHi : Word
  /-- SRC (10 R35) -/
  src : Word
  /-- DST (10 R36) -/
  dst : Word
  /-- LEN (10 R37) -/
  len : Word
  /-- COUNT (10 R38) -/
  count : Word
  /-- CLIPCNT (10 R39) -/
  clipcnt : Word
  /-- CLIPIDX (10 R40) -/
  clipidx : Word
  /-- ERRINFO (10 R41) -/
  errinfo : Word
  /-- FRAMESZ, bits 17:0 (10 R42) -/
  framesz : BitVec 18
  /-- the BYTE memory (20 R45, R46) -/
  bytes : Memory 8
  /-- the SAMPLE memory (20 R45, R47) -/
  samples : Memory 64
  /-- the address of the last byte cell: BYTE_SPACE_SIZE - 1 (00 R6, log entry 2) -/
  byteTop : Word
  /-- the index of the last sample cell: SAMPLE_SPACE_SIZE - 1 (00 R7, log entry 2) -/
  sampleTop : Word
  /-- the host's transactions still to come, the next first (the model's own, log entry 3) -/
  pending : List HostTxn
  /-- what the host's last read returned (the model's own, log entry 5) -/
  readData : Option HostValue
  deriving DecidableEq, Repr

/-- The machine right after reset (70 R142), which power-on is (70 R141): every register at its reset value,
memories in which nothing is written, spaces of the default sizes (00 R6, R7), no transaction pending. -/
def State.reset : State where
  status := { valid := false, err := false, trunc := false, clip := false, errcode := 0 }
  bits := 0
  order := false
  signed := false
  channels := 0
  rateLo := 0
  rateHi := 0
  src := 0
  dst := 0
  len := 0
  count := 0
  clipcnt := 0
  clipidx := 0xFFFFFFFF
  errinfo := 0
  framesz := 0
  bytes := []
  samples := []
  byteTop := Config.defaultByteTop
  sampleTop := Config.defaultSampleTop
  pending := []
  readData := none

end Sys2Proof.Machine
end

