-- ==== Sys2Proof/Machine/Flags.lean ====
section
/-! DEFINITION. STATUS: its word, what the prologue and a fault make of it, and its TRUNC and CLIP flags
(10 R21 to R27). -/

namespace Sys2Proof.Machine

/-- A flag as bit `k` of a 32-bit register (10 R22, R28). -/
def bitAt (b : Bool) (k : Nat) : Word := if b then 1#32 <<< k else 0

/-- The fault code's number in STATUS.ERRCODE (60 R121, 10 R27). -/
def faultNumber : FaultCode → BitVec 4
  | .illegalCommand => 1
  | .invalidFormat => 2
  | .formatNotValidated => 3
  | .channelOutOfRange => 4
  | .truncatedInput => 5
  | .addressRange => 6

/-- The word STATUS reads as (10 R22): VALID 0, ERR 1, TRUNC 2, CLIP 3, ERRCODE 11:8, the rest 0. -/
def statusWord (st : Status) : Word :=
  bitAt st.valid 0 ||| bitAt st.err 1 ||| bitAt st.trunc 2 ||| bitAt st.clip 3
    ||| (st.errcode.setWidth 32 <<< 8)

/-- What the prologue of every command does to STATUS: all result flags 0, VALID untouched (10 R21). -/
def statusCleared (st : Status) : Status := ⟨st.valid, false, false, false, 0⟩

/-- What a fault does to STATUS: ERRCODE and ERR, nothing else (60 R128). -/
def statusFaulted (code : FaultCode) (st : Status) : Status :=
  { st with err := true, errcode := faultNumber code }

/-- STATUS.TRUNC after a DECODE that left `rem` trailing bytes (10 R25, 41 R98). -/
def truncFlag (rem : Nat) : Bool := rem != 0

/-- STATUS.CLIP after an ENCODE that clipped `cnt` samples (10 R26, 42 R114). -/
def clipFlag (cnt : Nat) : Bool := cnt != 0

end Sys2Proof.Machine
end

