-- ==== Sys2Proof/Machine/Ops.lean ====
section
/-! DEFINITION. The named operations over memory and registers: cell access (00 R12, 20 R45 to R55), the register
window (10 R17, R18), the command prologue (10 R21), raising a fault (60 R128), and the reset event (70 R141). -/

namespace Sys2Proof.Machine

/-! ### Memory -/

/-- The value the memory lists for cell `a`, if something has written it. -/
def Memory.get? {w : Nat} (m : Memory w) (a : Nat) : Option (BitVec w) :=
  match m with
  | [] => none
  | (b, x) :: m => if a = b then some x else Memory.get? m a

/-- Cell `a` takes the value `v`; every other cell keeps what it had (20 R53). The list stays strictly rising. -/
def Memory.write {w : Nat} (m : Memory w) (a : Nat) (v : BitVec w) : Memory w :=
  match m with
  | [] => [(a, v)]
  | (b, x) :: m =>
    if a < b then (a, v) :: (b, x) :: m
    else if a = b then (a, v) :: m
    else (b, x) :: Memory.write m a v

/-- Cells `base` to `base + n - 1` take the values `f 0` to `f (n - 1)`, one cell at a time. -/
def Memory.fill {w : Nat} (m : Memory w) (base : Nat) (f : Nat → BitVec w) : Nat → Memory w
  | 0 => m
  | n + 1 => (Memory.fill m base f n).write (base + n) (f n)

/-- The canonical form: addresses strictly rising. A listed cell is one something has written, so no entry can equal
what an unlisted cell holds, which is no value (log entry 1). -/
abbrev Memory.wf {w : Nat} (m : Memory w) : Prop := m.Pairwise (fun c d => c.1 < d.1)

/-- Every listed address is below `size`: memory lists no cell that does not exist (20 R45). -/
abbrev Memory.within {w : Nat} (m : Memory w) (size : Nat) : Prop := ∀ c ∈ m, c.1 < size

/-- BYTE_SPACE_SIZE, 1 to 2^32 (00 R6). -/
def State.byteSize (s : State) : Nat := s.byteTop.toNat + 1

/-- SAMPLE_SPACE_SIZE, 1 to 2^32 (00 R7). -/
def State.sampleSize (s : State) : Nat := s.sampleTop.toNat + 1

/-- MemRead(addr, 1) of 00 R12: what is listed for the cell, or, where nothing has written it, what it held at
power-on, a free value (70 R143, log entry 1). -/
def State.memRead (s : State) (a : Nat) : Byte := (Memory.get? s.bytes a).getD (Config.powerOnByte a)

/-- SmpRead(i) of 00 R12, likewise. -/
def State.smpRead (s : State) (i : Nat) : Cell := (Memory.get? s.samples i).getD (Config.powerOnSample i)

/-- MemWrite(addr, 1, v) of 00 R12. -/
def State.memWrite (s : State) (a : Nat) (v : Byte) : State := { s with bytes := Memory.write s.bytes a v }

/-- SmpWrite(i, v) of 00 R12. -/
def State.smpWrite (s : State) (i : Nat) (v : Cell) : State := { s with samples := Memory.write s.samples i v }

/-- The range check of 20 R55, on unbounded integers. -/
def inRange (base n size : Nat) : Bool := base + n ≤ size

/-- The two range checks of a command as ERRINFO bits: bit 0 source, bit 1 destination (41 R87, 42 R102). -/
def rangeInfo (srcOk dstOk : Bool) : Word := (if srcOk then 0 else 1) ||| (if dstOk then 0 else 2)

/-! ### Commands -/

/-- The prologue of every command (10 R21): the result fields are cleared; VALID, FRAMESZ, the descriptor and the
operand registers are untouched. -/
def prologue (s : State) : State :=
  { s with
    status := statusCleared s.status, errinfo := 0, count := 0, clipcnt := 0, clipidx := 0xFFFFFFFF }

/-- `raise Fault(code, info)`, the core's form of exception entry (60 R128): ERRCODE, ERR and ERRINFO are written and
the command ends; nothing is saved beyond them and control returns to the host. The core has no return from a
fault (60 R130): the next command's prologue clears these fields. -/
def raiseFault (code : FaultCode) (info : Word) (s : State) : State :=
  { s with status := statusFaulted code s.status, errinfo := info }

/-! ### The register window -/

/-- The word FMT0 reads as (10 R28). -/
def fmt0Word (s : State) : Word := s.bits.setWidth 32 ||| bitAt s.order 8 ||| bitAt s.signed 9

/-- The word FMT1 reads as (10 R32). -/
def fmt1Word (s : State) : Word := s.channels.setWidth 32

/-- ID, hard-wired (10 R43). -/
def idWord : Word := 0x50434D01

/-- HostRead(off) of 10 R18: the word at an offset of the window (10 R17), or none where the offset is not one of
its sixteen words. CMD and 0x3C read 0. -/
def windowRead (off : Nat) (s : State) : Option Word :=
  match off with
  | 0x00 => some 0
  | 0x04 => some (statusWord s.status)
  | 0x08 => some (fmt0Word s)
  | 0x0C => some (fmt1Word s)
  | 0x10 => some s.rateLo
  | 0x14 => some s.rateHi
  | 0x18 => some s.src
  | 0x1C => some s.dst
  | 0x20 => some s.len
  | 0x24 => some s.count
  | 0x28 => some s.clipcnt
  | 0x2C => some s.clipidx
  | 0x30 => some s.errinfo
  | 0x34 => some (s.framesz.setWidth 32)
  | 0x38 => some idWord
  | 0x3C => some 0
  | _ => none

/-- What a write to a descriptor register does besides storing (10 R34): VALID and FRAMESZ are cleared. -/
def invalidate (s : State) : State := { s with status := { s.status with valid := false }, framesz := 0 }

/-- HostWrite(off, v) of 10 R18 at an offset other than CMD's: reserved bits of `v` are discarded, a write to a
read-only register or to 0x3C changes nothing, a descriptor write clears VALID (10 R34); none where the offset is
not one of the window. (A write to CMD runs a command, 30 R73: `runCommand`.) -/
def windowWrite (off : Nat) (v : Word) (s : State) : Option State :=
  match off with
  | 0x04 => some s
  | 0x08 => some (invalidate { s with
      bits := v.extractLsb' 0 8, order := v.getLsbD 8, signed := v.getLsbD 9 })
  | 0x0C => some (invalidate { s with channels := v.extractLsb' 0 16 })
  | 0x10 => some (invalidate { s with rateLo := v })
  | 0x14 => some (invalidate { s with rateHi := v })
  | 0x18 => some { s with src := v }
  | 0x1C => some { s with dst := v }
  | 0x20 => some { s with len := v }
  | 0x24 => some s
  | 0x28 => some s
  | 0x2C => some s
  | 0x30 => some s
  | 0x34 => some s
  | 0x38 => some s
  | 0x3C => some s
  | _ => none

/-- The reset event (70 R141): every register of the window takes its reset value; the memories are not touched
(70 R143); the sizes of the spaces and the host's side of the bus are not the core's to reset (log entry 8). -/
def resetEvent (s : State) : State :=
  { State.reset with
    bytes := s.bytes, samples := s.samples, byteTop := s.byteTop, sampleTop := s.sampleTop,
    pending := s.pending, readData := s.readData }

end Sys2Proof.Machine
end

