-- ==== Sys2Proof/Machine/Operands.lean ====
section
/-! DEFINITION. The operand forms: the descriptor's derived quantities (00 R13), the storage form of a sample in
bytes (41 R89 to R93, 42 R110 to R112), and its two forms in a cell, binary64 and integer (41 R95, R96, 42 R104 to
R109). All arithmetic is on unbounded integers (00 R10). -/

namespace Sys2Proof.Machine

/-! ### Derived format quantities -/

/-- `W`, bits per sample (00 R13). -/
def State.width (s : State) : Nat := s.bits.toNat

/-- `B`, bytes per sample (00 R13). -/
def State.sampleBytes (s : State) : Nat := s.width / 8

/-- `C`, the channel count (00 R13). -/
def State.chans (s : State) : Nat := s.channels.toNat

/-- `FS`, the frame size in bytes (00 R13). -/
def State.frameBytes (s : State) : Nat := s.chans * s.sampleBytes

/-- `NF`, the normalizing factor of width `W`: the positive 2^(W-1) (00 R13, 41 R94). -/
def normFactor (W : Nat) : Nat := 2 ^ (W - 1)

/-- `SMIN`, the least sample code of width `W` (00 R13). -/
def sMin (W : Nat) : Int := -(2 ^ (W - 1) : Nat)

/-- `SMAX`, the greatest sample code of width `W` (00 R13). -/
def sMax (W : Nat) : Int := (2 ^ (W - 1) : Nat) - 1

/-- LegalFormat(W, C) of 40 R81. -/
def legalFormat (W C : Nat) : Bool := (W == 8 || W == 16 || W == 24 || W == 32) && 1 ≤ C

/-- The exponent weight of byte `j` of a sample of `B` bytes (20 R49): `j` little-endian, `B-1-j` big-endian. -/
def bytePlace (be : Bool) (B j : Nat) : Nat := if be then B - 1 - j else j

/-! ### Storage bytes to sample code -/

/-- Assembly of the bytes of a sample, `b j` at offset `j` (41 R91 little-endian, R92 big-endian). -/
def assemble (be : Bool) (B : Nat) (b : Nat → Byte) : Nat :=
  ((List.range B).map fun j => (b j).toNat * 2 ^ (8 * bytePlace be B j)).sum

/-- Sign extension from `n` bits (41 R93). -/
def signExtendFrom (n u : Nat) : Int := if u.testBit (n - 1) then (u : Int) - 2 ^ n else u

/-- The sample code of the storage bytes `b 0` to `b (B-1)`: 41 R90 at one byte, where ORDER is not read, and 41 R91
to R93 at more. -/
def codeOfBytes (be : Bool) (B : Nat) (b : Nat → Byte) : Int :=
  if B = 1 then ((b 0).toNat : Int) - 128 else signExtendFrom (8 * B) (assemble be B b)

/-! ### Sample code to storage bytes -/

/-- Storage byte `j` of a sample code at width `W` of `B` bytes: 42 R110 at one byte, 42 R111 and R112 at more. -/
def byteOfCode (be : Bool) (W B : Nat) (code : Int) (j : Nat) : Byte :=
  if B = 1 then BitVec.ofInt 8 (if 0 ≤ code then code - 128 else code + 128)
  else (BitVec.ofInt W code).extractLsb' (8 * bytePlace be B j) 8

/-! ### binary64 cells -/

/-- The sign bit of a binary64 pattern (00 R11). -/
def f64Sign (p : Cell) : Bool := p.getLsbD 63

/-- The biased exponent of a binary64 pattern, bits 62:52 (00 R11). -/
def f64Exp (p : Cell) : Nat := (p.extractLsb' 52 11).toNat

/-- The fraction of a binary64 pattern, bits 51:0 (00 R11). -/
def f64Frac (p : Cell) : Nat := (p.extractLsb' 0 52).toNat

/-- The binary64 pattern with sign `s`, biased exponent `e` and fraction `f` (00 R11). -/
def f64Pack (s : Bool) (e f : Nat) : Cell := BitVec.ofBool s ++ BitVec.ofNat 11 e ++ BitVec.ofNat 52 f

/-- pattern(f64(v / NF)) of 41 R95, built on integers as that rule gives it: exact, +0.0 for 0. -/
def normPattern (W : Nat) (v : Int) : Cell :=
  if v = 0 then 0
  else
    let a := v.natAbs
    let e := Nat.log2 a
    f64Pack (decide (v < 0)) (1023 + e - (W - 1)) ((a - 2 ^ e) * 2 ^ (52 - e))

/-- The cell DECODE writes for a sample code: 41 R95 for REP = 0, 41 R96 for REP = 1. -/
def cellOfCode (rep : Bool) (W : Nat) (v : Int) : Cell := if rep then BitVec.ofInt 64 v else normPattern W v

/-- The classes of a normalized input sample (42 R104). -/
inductive SampleClass where
  | nan
  | low
  | high
  | inside
  deriving DecidableEq, Repr

/-- The class of a binary64 pattern, tested in the order of 42 R104. -/
def classify (p : Cell) : SampleClass :=
  if f64Exp p = 0x7FF ∧ f64Frac p ≠ 0 then .nan
  else if f64Sign p ∧ (1023 < f64Exp p ∨ (f64Exp p = 1023 ∧ f64Frac p ≠ 0)) then .low
  else if ¬ f64Sign p ∧ 1023 ≤ f64Exp p then .high
  else .inside

/-- trunc(real(p) * NF) for an IN pattern, on integers as 42 R108 gives it. -/
def truncScaled (W : Nat) (p : Cell) : Int :=
  let m := if f64Exp p = 0 then f64Frac p else f64Frac p + 2 ^ 52
  let e : Int := if f64Exp p = 0 then -1074 else (f64Exp p : Int) - 1075
  let k : Int := e + ((W : Int) - 1)
  let a : Nat := if 0 ≤ k then m * 2 ^ k.toNat else m / 2 ^ (-k).toNat
  if f64Sign p then -(a : Int) else a

/-- Quantize(p, REP = 0) of 42 R115: the code and whether the sample was clipped (42 R104 to R108). -/
def quantizeNorm (W : Nat) (p : Cell) : Int × Bool :=
  match classify p with
  | .nan => (0, true)
  | .low => (sMin W, true)
  | .high => (sMax W, true)
  | .inside => (truncScaled W p, false)

/-- Quantize(p, REP = 1) of 42 R115: the integer range check (42 R109). -/
def quantizeInt (W : Nat) (p : Cell) : Int × Bool :=
  if p.toInt < sMin W then (sMin W, true)
  else if sMax W < p.toInt then (sMax W, true)
  else (p.toInt, false)

/-- Quantize of 42 R115. -/
def quantize (rep : Bool) (W : Nat) (p : Cell) : Int × Bool :=
  if rep then quantizeInt W p else quantizeNorm W p

end Sys2Proof.Machine
end

