-- ==== Sys2Proof/Machine/Descriptor.lean ====
section
/-! DEFINITION. The commands that touch no memory: NOP (40 R79) and VALIDATE (40 R80 to R83). -/

namespace Sys2Proof.Machine

/-- NOP (40 R79): the prologue only. -/
def execNop (s : State) : Host.Outcome State Fault Refusal := .next (prologue s)

/-- The ERRINFO value of VALIDATE (40 R83): bit 0 the width is not one of 8, 16, 24, 32; bit 1 no channels. -/
def formatInfo (W C : Nat) : Word :=
  (if W = 8 ∨ W = 16 ∨ W = 24 ∨ W = 32 then 0 else 1) ||| (if C < 1 then 2 else 0)

/-- A VALIDATE that finds the descriptor legal (40 R82): VALID <- 1 and FRAMESZ <- C * (W div 8). -/
def acceptFormat (s : State) : State :=
  { s with
    status := { s.status with valid := true }
    framesz := BitVec.ofNat 18 (s.chans * (s.width / 8)) }

/-- VALIDATE (40 R80): the prologue, then 40 R82 or, on an illegal descriptor, VALID and FRAMESZ cleared and
InvalidFormat raised (40 R83). -/
def execValidate (s : State) : Host.Outcome State Fault Refusal :=
  let s := prologue s
  let info := formatInfo s.width s.chans
  if info != 0 then .next (raiseFault .invalidFormat info (invalidate s)) else .next (acceptFormat s)

end Sys2Proof.Machine
end

