-- ==== Sys2Proof/Machine/PcmDecode.lean ====
section
/-! DEFINITION. The PCM decoder: DECODE (41 R86 to R99). -/

namespace Sys2Proof.Machine

/-- `N = LEN div FS`, the complete frames of the input (41 R88). -/
def decodeFrames (s : State) : Nat := s.len.toNat / s.frameBytes

/-- `rem = LEN mod FS`, the bytes of the trailing partial frame (41 R88). -/
def decodeRem (s : State) : Nat := s.len.toNat % s.frameBytes

/-- The checks of DECODE in their order, and the fault of the first that fails (41 R87, 60 R129). -/
def decodeFault (strict : Bool) (ch : BitVec 16) (s : State) : Option (FaultCode × Word) :=
  let info := rangeInfo (inRange s.src.toNat s.len.toNat s.byteSize)
    (inRange s.dst.toNat (decodeFrames s) s.sampleSize)
  if !s.status.valid then some (.formatNotValidated, 0)
  else if s.chans ≤ ch.toNat then some (.channelOutOfRange, ch.setWidth 32)
  else if decodeRem s ≠ 0 ∧ strict then some (.truncatedInput, BitVec.ofNat 32 (decodeRem s))
  else if info != 0 then some (.addressRange, info)
  else none

/-- The byte address of byte `j` of channel `ch`'s sample in frame `i` (41 R89), from the frame base `base`. -/
def sampleAddr (s : State) (base : Nat) (ch i j : Nat) : Nat :=
  base + i * s.frameBytes + ch * s.sampleBytes + j

/-- The sample code of channel `ch` in frame `i` of the input (41 R89 to R93). -/
def decodedCode (s : State) (ch i : Nat) : Int :=
  codeOfBytes s.order s.sampleBytes fun j => s.memRead (sampleAddr s s.src.toNat ch i j)

/-- DECODE once its checks have passed (41 R97, R98): cell DST + i takes sample i, COUNT and TRUNC are written. -/
def decodeRun (rep : Bool) (ch : BitVec 16) (s : State) : State :=
  { s with
    samples := Memory.fill s.samples s.dst.toNat
      (fun i => cellOfCode rep s.width (decodedCode s ch.toNat i)) (decodeFrames s)
    count := BitVec.ofNat 32 (decodeFrames s)
    status := { s.status with trunc := truncFlag (decodeRem s) } }

/-- DECODE (41 R86): the prologue, the checks of 41 R87, then a fault or 41 R97. -/
def execDecode (rep strict : Bool) (ch : BitVec 16) (s : State) : Host.Outcome State Fault Refusal :=
  let s := prologue s
  match decodeFault strict ch s with
  | some (code, info) => .next (raiseFault code info s)
  | none => .next (decodeRun rep ch s)

end Sys2Proof.Machine
end

