-- ==== Sys2Proof/Machine/PcmEncode.lean ====
section
/-! DEFINITION. The PCM encoder: ENCODE (42 R101 to R117). -/

namespace Sys2Proof.Machine

/-- The checks of ENCODE in their order, and the fault of the first that fails (42 R102, 60 R129). The destination
check covers whole frames, with FILL or without. -/
def encodeFault (ch : BitVec 16) (s : State) : Option (FaultCode × Word) :=
  let info := rangeInfo (inRange s.src.toNat s.len.toNat s.sampleSize)
    (inRange s.dst.toNat (s.len.toNat * s.frameBytes) s.byteSize)
  if !s.status.valid then some (.formatNotValidated, 0)
  else if s.chans ≤ ch.toNat then some (.channelOutOfRange, ch.setWidth 32)
  else if info != 0 then some (.addressRange, info)
  else none

/-- The code of input sample `i` and whether it was clipped (42 R103, R115 Quantize). -/
def encodedCode (rep : Bool) (s : State) (i : Nat) : Int × Bool :=
  quantize rep s.width (s.smpRead (s.src.toNat + i))

/-- WriteSample(a, code) of 42 R115: the B storage bytes of a code (42 R110 to R112). -/
def writeSample (s : State) (m : Memory 8) (a : Nat) (code : Int) : Memory 8 :=
  Memory.fill m a (byteOfCode s.order s.width s.sampleBytes code) s.sampleBytes

/-- Silence written to the first `n` channels of the frame at `fb`, but not to channel `ch` (42 R113, FILL = 1). -/
def writeSilence (s : State) (m : Memory 8) (fb ch : Nat) : Nat → Memory 8
  | 0 => m
  | c + 1 =>
    let m := writeSilence s m fb ch c
    if c = ch then m else writeSample s m (fb + c * s.sampleBytes) 0

/-- Frame `i` of the output (42 R113): channel `ch`'s sample and, with FILL = 1, silence in the others. -/
def writeFrame (rep fill : Bool) (ch : Nat) (s : State) (m : Memory 8) (i : Nat) : Memory 8 :=
  let fb := s.dst.toNat + i * s.frameBytes
  let m := writeSample s m (fb + ch * s.sampleBytes) (encodedCode rep s i).1
  if fill then writeSilence s m fb ch s.chans else m

/-- The first `n` frames of the output, in order (42 R115). -/
def writeFrames (rep fill : Bool) (ch : Nat) (s : State) : Nat → Memory 8
  | 0 => s.bytes
  | n + 1 => writeFrame rep fill ch s (writeFrames rep fill ch s n) n

/-- How many of the `n` input samples were clipped (42 R114, CLIPCNT). -/
def clippedCount (rep : Bool) (s : State) (n : Nat) : Nat := (List.range n).countP fun i => (encodedCode rep s i).2

/-- The least clipped index among the `n` input samples, or 0xFFFFFFFF (42 R114, CLIPIDX). -/
def firstClipped (rep : Bool) (s : State) (n : Nat) : Word :=
  match (List.range n).find? fun i => (encodedCode rep s i).2 with
  | some i => BitVec.ofNat 32 i
  | none => 0xFFFFFFFF

/-- ENCODE once its checks have passed (42 R115, R116): the frames, the clip diagnostic and COUNT are written. -/
def encodeRun (rep fill : Bool) (ch : BitVec 16) (s : State) : State :=
  { s with
    bytes := writeFrames rep fill ch.toNat s s.len.toNat
    clipcnt := BitVec.ofNat 32 (clippedCount rep s s.len.toNat)
    clipidx := firstClipped rep s s.len.toNat
    status := { s.status with clip := clipFlag (clippedCount rep s s.len.toNat) }
    count := s.len }

/-- ENCODE (42 R101): the prologue, the checks of 42 R102, then a fault or 42 R115. -/
def execEncode (rep fill : Bool) (ch : BitVec 16) (s : State) : Host.Outcome State Fault Refusal :=
  let s := prologue s
  match encodeFault ch s with
  | some (code, info) => .next (raiseFault code info s)
  | none => .next (encodeRun rep fill ch s)

end Sys2Proof.Machine
end

