-- ==== Sys2Proof/Machine/Dispatch.lean ====
section
/-! DEFINITION. One arm per command of spec/opcode_table.json (30 R73). -/

namespace Sys2Proof.Machine

/-- The meaning of a command, its prologue included (30 R73). -/
def exec (i : Instr) (s : State) : Host.Outcome State Fault Refusal :=
  match i with
  | .nop => Sys2Proof.Machine.execNop s
  | .validate => Sys2Proof.Machine.execValidate s
  | .decode rep strict ch => Sys2Proof.Machine.execDecode rep strict ch s
  | .encode rep fill ch => Sys2Proof.Machine.execEncode rep fill ch s

end Sys2Proof.Machine
end

