-- ==== Sys2Proof/Machine/Bus.lean ====
section
/-! DEFINITION. The host's transactions (70 R149): running a command word (30 R73), register and memory accesses,
reset. -/

namespace Sys2Proof.Machine

/-- Execute(w) of 30 R73: the prologue, then the command the word decodes to, or IllegalCommand (60 R122). -/
def runCommand (w : Word) (s : State) : Host.Outcome State Fault Refusal :=
  match decodeCmd w with
  | .op i => exec i s
  | .illegal info => .next (raiseFault .illegalCommand info (prologue s))

/-- HostRead(off) of 10 R18: no side effect on the core; the value goes to the host. -/
def hostRead (off : Nat) (s : State) : Host.Outcome State Fault Refusal :=
  match windowRead off s with
  | some v => .next { s with readData := some (.word v) }
  | none => .refused (.offWindow off)

/-- HostWrite(off, v) of 10 R18: at CMD it runs a command (10 R19, 30 R73). -/
def hostWrite (off : Nat) (v : Word) (s : State) : Host.Outcome State Fault Refusal :=
  if off = 0x00 then runCommand v s
  else match windowWrite off v s with
    | some t => .next t
    | none => .refused (.offWindow off)

/-- One transaction of the host (70 R149), between commands (10 R20). -/
def perform (x : HostTxn) (s : State) : Host.Outcome State Fault Refusal :=
  match x with
  | .regRead off => hostRead off s
  | .regWrite off v => hostWrite off v s
  | .byteRead a =>
    if a.toNat < s.byteSize then .next { s with readData := some (.byte (s.memRead a.toNat)) }
    else .fault (.noSuchByteCell a)
  | .byteWrite a v => if a.toNat < s.byteSize then .next (s.memWrite a.toNat v) else .fault (.noSuchByteCell a)
  | .sampleRead a =>
    if a.toNat < s.sampleSize then .next { s with readData := some (.cell (s.smpRead a.toNat)) }
    else .fault (.noSuchSampleCell a)
  | .sampleWrite a v => if a.toNat < s.sampleSize then .next (s.smpWrite a.toNat v) else .fault (.noSuchSampleCell a)
  | .reset => .next (resetEvent s)

/-- The next transaction of the host is taken from the front of the pending ones; with none pending the core is idle
and holds its registers (60 R140, log entry 4). -/
def nextTransaction (s : State) : Host.Outcome State Fault Refusal :=
  match s.pending with
  | [] => .next s
  | x :: rest => perform x { s with pending := rest }

end Sys2Proof.Machine
end

