-- ==== Sys2Proof/Machine/Step.lean ====
section
/-! DEFINITION. One step of the machine: the host's next transaction (10 R16, R20; 70 R150). -/

namespace Sys2Proof.Machine

/-- One step: one host transaction, a whole command included (10 R20). -/
def step (s : State) : Host.Outcome State Fault Refusal := nextTransaction s

/-- `s` with the command word put where step takes its next transaction from: the host's write of it to CMD, before the
transactions already pending (log entry 3). -/
def State.withFetchWord (s : State) (nbits w : Nat) : State :=
  { s with pending := .regWrite 0x00 (tableWord nbits w) :: s.pending }

end Sys2Proof.Machine
end

