-- ==== Sys2Proof/Machine/Asm.lean ====
section
/-! DEFINITION. The host's notation (30 R76 to R78): command lines to command words, host program lines and
pseudo-instructions to host transactions. Lines are given as data, not as text (log entry 13). -/

namespace Sys2Proof.Machine

/-- The four mnemonics of 30 R76. -/
inductive AsmOp where
  | nop
  | validate
  | decode
  | encode
  deriving DecidableEq, Repr

/-- The representation suffix of 30 R76: `.F` (REP = 0) or `.I` (REP = 1). -/
inductive AsmRep where
  | dotF
  | dotI
  deriving DecidableEq, Repr

/-- One command line of 30 R76: mnemonic, representation suffix if present, whether the flag suffix (`.S` on DECODE,
`.Z` on ENCODE) is present, and the channel if present. -/
structure AsmCmd where
  op : AsmOp
  rep : Option AsmRep
  flag : Bool
  ch : Option Nat
  deriving DecidableEq, Repr

/-- REP of a representation suffix; `.F` is the default (30 R76). -/
def repBit : Option AsmRep → Nat
  | some .dotI => 1
  | _ => 0

/-- The word of a command line (30 R76), or none for an assembly error: an omitted channel, a channel above 65535, or a
suffix or channel on NOP or VALIDATE. -/
def assembleCmd (c : AsmCmd) : Option Word :=
  match c.op with
  | .nop => if c.rep = none ∧ c.flag = false ∧ c.ch = none then some 0x00000000 else none
  | .validate => if c.rep = none ∧ c.flag = false ∧ c.ch = none then some 0x00000001 else none
  | .decode =>
    match c.ch with
    | some ch =>
      if ch ≤ 65535 then some (BitVec.ofNat 32 (ch <<< 16 ||| c.flag.toNat <<< 5 ||| repBit c.rep <<< 4 ||| 0x2))
      else none
    | none => none
  | .encode =>
    match c.ch with
    | some ch =>
      if ch ≤ 65535 then some (BitVec.ofNat 32 (ch <<< 16 ||| c.flag.toNat <<< 6 ||| repBit c.rep <<< 4 ||| 0x3))
      else none
    | none => none

/-- The register names of 10 R17. -/
inductive WindowReg where
  | CMD
  | STATUS
  | FMT0
  | FMT1
  | RATE_LO
  | RATE_HI
  | SRC
  | DST
  | LEN
  | COUNT
  | CLIPCNT
  | CLIPIDX
  | ERRINFO
  | FRAMESZ
  | ID
  deriving DecidableEq, Repr

/-- The offset of a register (10 R17). -/
def regOffset : WindowReg → Nat
  | .CMD => 0x00
  | .STATUS => 0x04
  | .FMT0 => 0x08
  | .FMT1 => 0x0C
  | .RATE_LO => 0x10
  | .RATE_HI => 0x14
  | .SRC => 0x18
  | .DST => 0x1C
  | .LEN => 0x20
  | .COUNT => 0x24
  | .CLIPCNT => 0x28
  | .CLIPIDX => 0x2C
  | .ERRINFO => 0x30
  | .FRAMESZ => 0x34
  | .ID => 0x38

/-- One line of a host program: WR, RD or a command (30 R77), or a pseudo-instruction (30 R78). `bigEndian` is the
`order` operand (LE or BE); `p` is the binary64 pattern of SETRATE's operand. -/
inductive HostLine where
  | wr (r : WindowReg) (v : Word)
  | rd (r : WindowReg)
  | cmd (c : AsmCmd)
  | setFmt (bits channels : Word) (bigEndian : Bool) (signed : Option Bool)
  | setRate (p : Cell)
  | setBuf (src dst len : Word)
  | openFmt (bits channels : Word) (bigEndian : Bool)
  deriving DecidableEq, Repr

/-- `WR <reg>, <value>` (30 R77). -/
def wrTxn (r : WindowReg) (v : Word) : HostTxn := .regWrite (regOffset r) v

/-- The default of SETFMT's `signed` (30 R78): 1 above 8 bits, 0 at 8 bits; below 8 bits the rule gives none and an
omitted operand is an error (log entry 13). -/
def defaultSigned (bits : Word) : Option Bool :=
  if 8 < bits.toNat then some true else if bits.toNat = 8 then some false else none

/-- SETFMT with its `signed` operand given (30 R78). -/
def setFmtTxns (bits channels : Word) (bigEndian signed : Bool) : List HostTxn :=
  [wrTxn .FMT0 (bits ||| bitAt bigEndian 8 ||| bitAt signed 9), wrTxn .FMT1 channels]

/-- The transactions a line stands for (30 R77, R78), or none for an assembly error. -/
def expandLine : HostLine → Option (List HostTxn)
  | .wr r v => some [wrTxn r v]
  | .rd r => some [.regRead (regOffset r)]
  | .cmd c => (assembleCmd c).map fun w => [wrTxn .CMD w]
  | .setFmt bits channels be (some signed) => some (setFmtTxns bits channels be signed)
  | .setFmt bits channels be none => (defaultSigned bits).map (setFmtTxns bits channels be)
  | .setRate p => some [wrTxn .RATE_LO (p.extractLsb' 0 32), wrTxn .RATE_HI (p.extractLsb' 32 32)]
  | .setBuf src dst len => some [wrTxn .SRC src, wrTxn .DST dst, wrTxn .LEN len]
  | .openFmt bits channels be =>
    (defaultSigned bits).map fun signed => setFmtTxns bits channels be signed ++ [wrTxn .CMD 0x00000001]

/-- The transactions of a host program, in order (30 R77), or none where a line is an assembly error. -/
def expandProgram : List HostLine → Option (List HostTxn)
  | [] => some []
  | l :: ls => do return (← expandLine l) ++ (← expandProgram ls)

/-- `s` with a host program given to it: its transactions come after those already pending (70 R150). -/
def State.withProgram (s : State) (txns : List HostTxn) : State := { s with pending := s.pending ++ txns }

end Sys2Proof.Machine
end

