-- ==== Sys2Proof/Safety.lean ====
section
/-! DEFINITION. The terms claims use: the invariant of the machine, frames, the outcome of a command, the value of a
binary64 pattern, and the observation of a run. -/

namespace Sys2Proof.Machine

/-! ### The invariant -/

/-- The rules among the result fields: ERR exactly when ERRCODE is not 0 (10 R24), ERRCODE at most 6 (10 R27), ERRINFO
0 without a fault (10 R41), the other results at their prologue values after a fault (60 R128), and CLIP, CLIPCNT and
CLIPIDX in step (42 R114, 10 R39, R40). -/
abbrev State.resultsAgree (s : State) : Prop :=
  (s.status.err = true ↔ s.status.errcode ≠ 0) ∧ s.status.errcode.toNat ≤ 6
  ∧ (s.status.err = false → s.errinfo = 0)
  ∧ (s.status.err = true → s.count = 0 ∧ s.clipcnt = 0 ∧ s.status.trunc = false)
  ∧ (s.status.clip = true ↔ s.clipcnt ≠ 0) ∧ (s.clipidx = 0xFFFFFFFF ↔ s.clipcnt = 0)
  ∧ s.clipcnt.toNat ≤ s.count.toNat ∧ (s.clipcnt ≠ 0 → s.clipidx.toNat < s.count.toNat)

/-- The first three points of 40 R84, and FRAMESZ 0 while VALID is 0 (10 R42). -/
abbrev State.formatAgrees (s : State) : Prop :=
  (s.status.valid = true → legalFormat s.width s.chans = true ∧ s.framesz.toNat = s.chans * (s.width / 8))
  ∧ (s.status.valid = false → s.framesz = 0)

/-- Both memories are in canonical form and list no cell outside their space (20 R45). -/
abbrev State.memoriesWf (s : State) : Prop :=
  Memory.wf s.bytes ∧ Memory.within s.bytes s.byteSize
  ∧ Memory.wf s.samples ∧ Memory.within s.samples s.sampleSize

/-- What every step keeps. -/
abbrev State.Inv (s : State) : Prop := s.resultsAgree ∧ s.formatAgrees ∧ s.memoriesWf

/-! ### Frames -/

/-- The registers only the host writes (10 R15, R28, R32, R33, section 5), and the parameters of the spaces, are the
same in both states. -/
abbrev sameHostRegisters (s t : State) : Prop :=
  t.bits = s.bits ∧ t.order = s.order ∧ t.signed = s.signed ∧ t.channels = s.channels
  ∧ t.rateLo = s.rateLo ∧ t.rateHi = s.rateHi ∧ t.src = s.src ∧ t.dst = s.dst ∧ t.len = s.len
  ∧ t.byteTop = s.byteTop ∧ t.sampleTop = s.sampleTop

/-- VALID and FRAMESZ are the same in both states. -/
abbrev sameValidation (s t : State) : Prop := t.status.valid = s.status.valid ∧ t.framesz = s.framesz

/-- Every byte cell reads the same in both states. -/
def sameBytes (s t : State) : Prop := ∀ a, t.memRead a = s.memRead a

/-- Every sample cell reads the same in both states. -/
def sameSamples (s t : State) : Prop := ∀ i, t.smpRead i = s.smpRead i

/-- The host's side of the bus is the same in both states. -/
abbrev sameHostSide (s t : State) : Prop := t.pending = s.pending ∧ t.readData = s.readData

/-- The result registers hold their prologue values (10 R21). -/
abbrev resultsCleared (t : State) : Prop :=
  t.count = 0 ∧ t.clipcnt = 0 ∧ t.clipidx = 0xFFFFFFFF ∧ t.status.trunc = false ∧ t.status.clip = false

/-- `t` reports no fault (60 R121, code 0). -/
abbrev noFault (t : State) : Prop := t.status.err = false ∧ t.status.errcode = 0 ∧ t.errinfo = 0

/-- `t` reports fault number `code` with ERRINFO `info`, and the results are at their prologue values (60 R128). -/
abbrev reportsFault (t : State) (code : BitVec 4) (info : Word) : Prop :=
  t.status.err = true ∧ t.status.errcode = code ∧ t.errinfo = info ∧ resultsCleared t

/-- `t` is `s` after a command that faulted so: nothing but the result fields changed (60 R128). -/
def faultedFrom (s t : State) (code : BitVec 4) (info : Word) : Prop :=
  reportsFault t code info ∧ sameHostRegisters s t ∧ sameValidation s t ∧ sameBytes s t ∧ sameSamples s t
  ∧ sameHostSide s t

/-! ### When a command runs -/

/-- DECODE has no fault to report (41 R87): the descriptor is validated, the channel exists, the input is whole frames or
STRICT is 0, and both regions fit. -/
abbrev decodeReady (strict : Bool) (ch : BitVec 16) (s : State) : Prop :=
  s.status.valid = true ∧ ch.toNat < s.chans ∧ (s.len.toNat % s.frameBytes = 0 ∨ strict = false)
  ∧ s.src.toNat + s.len.toNat ≤ s.byteSize ∧ s.dst.toNat + s.len.toNat / s.frameBytes ≤ s.sampleSize

/-- ENCODE has no fault to report (42 R102). -/
abbrev encodeReady (ch : BitVec 16) (s : State) : Prop :=
  s.status.valid = true ∧ ch.toNat < s.chans
  ∧ s.src.toNat + s.len.toNat ≤ s.sampleSize ∧ s.dst.toNat + s.len.toNat * s.frameBytes ≤ s.byteSize

/-- The four widths (40 R81). -/
abbrev isWidth (W : Nat) : Prop := W = 8 ∨ W = 16 ∨ W = 24 ∨ W = 32

/-- Sample `i` of the input of an ENCODE with this REP, read from the SAMPLE space (42 R103), quantized (42 R115): its
code and whether it is clipped. -/
def inputCode (rep : Bool) (s : State) (i : Nat) : Int × Bool := quantize rep s.width (s.smpRead (s.src.toNat + i))

/-! ### binary64 -/

/-- `real(p)`, the exact rational of a finite binary64 pattern (00 R11). -/
def realOf (p : Cell) : ℚ :=
  (if f64Sign p then -1 else 1)
    * (if f64Exp p = 0 then (f64Frac p : ℚ) * 2 ^ (-1074 : ℤ)
       else (2 ^ 52 + f64Frac p : ℚ) * 2 ^ ((f64Exp p : ℤ) - 1075))

/-- The pattern is finite: neither NaN nor an infinity (00 R11). -/
def isFinite (p : Cell) : Bool := f64Exp p != 0x7FF

/-- isNaN of 00 R11. -/
def isNaN (p : Cell) : Bool := f64Exp p == 0x7FF && f64Frac p != 0

/-- `trunc(q)` of 00 R10: toward zero. -/
def truncQ (q : ℚ) : ℤ := if 0 ≤ q then ⌊q⌋ else -⌊-q⌋

/-! ### Runs -/

/-- The observation of a run (70 R150): the register window, offset 0x00 to 0x3C; the memories are read through
`memRead` and `smpRead`. -/
def State.window (s : State) : List (Option Word) := (List.range 16).map fun k => windowRead (4 * k) s

/-- A host access the spec admits (10 R18, 20 R45): a register offset of the window, an address inside its space. -/
def HostTxn.admitted (s : State) : HostTxn → Bool
  | .regRead off => off % 4 == 0 && off ≤ 0x3C
  | .regWrite off _ => off % 4 == 0 && off ≤ 0x3C
  | .byteRead a => a.toNat < s.byteSize
  | .byteWrite a _ => a.toNat < s.byteSize
  | .sampleRead a => a.toNat < s.sampleSize
  | .sampleWrite a _ => a.toNat < s.sampleSize
  | .reset => true

end Sys2Proof.Machine
end

