-- ==== Sys2Proof/Certificates/Slice0/Obligations.lean ====
section
/-! DEFINITION. The statements for the provers. Each docstring names the rules it formalises. -/

open Sys2Proof Sys2Proof.Machine

/-! ### Command words (30_encoding.md) -/

/-- Words written out from 30 R76's worked encodings and 95_test_vectors.md 2.2 decode as the spec says. -/
def Obligations.SpecWordsDecode : Prop :=
  decodeCmd 0x00000000 = .op .nop ∧ decodeCmd 0x00000001 = .op .validate
  ∧ decodeCmd 0x00010002 = .op (.decode false false 1) ∧ decodeCmd 0x00030032 = .op (.decode true true 3)
  ∧ decodeCmd 0x00000043 = .op (.encode false true 0) ∧ decodeCmd 0x00020013 = .op (.encode true false 2)
  ∧ decodeCmd 0x00000004 = .illegal 1 ∧ decodeCmd 0x00000080 = .illegal 2 ∧ decodeCmd 0x00010001 = .illegal 4
  ∧ decodeCmd 0x00000042 = .illegal 4 ∧ decodeCmd 0x00000023 = .illegal 4 ∧ decodeCmd 0xFFFFFFFF = .illegal 3

/-- Decoding the word of any command gives the command back, whatever its fields (30 R65, R71, R76). -/
def Obligations.DecodeOfEncode : Prop := ∀ i : Instr, decodeCmd (encode i) = .op i

/-- A word that decodes to a command is that command's word: no two words mean the same (30 R71). -/
def Obligations.EncodeOfDecode : Prop := ∀ (w : Word) (i : Instr), decodeCmd w = .op i → encode i = w

/-- 30 R71: the decoder accepts exactly the words a row of the match and mask table spells, which are exactly the words
whose fields the operation admits, and gives the command of that row. -/
def Obligations.DecoderAcceptsExactlyTableWords : Prop :=
  ∀ w : Word, ((∃ i, decodeCmd w = .op i) ↔ legalWord w = true) ∧ (legalWord w = true ↔ wellFormedWord w = true)
    ∧ ∀ i, decodeCmd w = .op i → i.row.spells w = true

/-- 30 R72: a word that is not well formed is illegal, with ERRINFO bit 0 for a reserved OP, bit 1 for a set RSV bit and
bit 2 for a field the operation does not admit, and no other bit. -/
def Obligations.IllegalWordInfoBits : Prop :=
  ∀ w : Word, wellFormedWord w = false →
    decodeCmd w = .illegal ((if opDefined w then 0 else 1) ||| (if reservedClear w then 0 else 2)
      ||| (if fieldsAdmitted w then 0 else 4))

/-- 30 R76: a DECODE or ENCODE line with a channel of 0 to 65535 assembles to the word of its command; a channel above
that, or none, is an assembly error; NOP and VALIDATE assemble to 0 and 1. -/
def Obligations.AssemblerLinesGiveCommandWords : Prop :=
  (∀ (rep : Option AsmRep) (flag : Bool) (ch : Nat), ch ≤ 65535 →
    assembleCmd ⟨.decode, rep, flag, some ch⟩
        = some (encode (.decode (decide (rep = some .dotI)) flag (BitVec.ofNat 16 ch)))
    ∧ assembleCmd ⟨.encode, rep, flag, some ch⟩
        = some (encode (.encode (decide (rep = some .dotI)) flag (BitVec.ofNat 16 ch))))
  ∧ (∀ (rep : Option AsmRep) (flag : Bool), assembleCmd ⟨.decode, rep, flag, none⟩ = none
    ∧ assembleCmd ⟨.encode, rep, flag, none⟩ = none
    ∧ ∀ ch > 65535, assembleCmd ⟨.decode, rep, flag, some ch⟩ = none ∧ assembleCmd ⟨.encode, rep, flag, some ch⟩ = none)
  ∧ assembleCmd ⟨.nop, none, false, none⟩ = some 0 ∧ assembleCmd ⟨.validate, none, false, none⟩ = some 1

/-! ### The step and the host's transactions (10, 20, 30, 70) -/

/-- 30 R73: when the host's next transaction writes to CMD a word that decodes to `i`, the step is exec of `i`, on the
state with that transaction taken away. -/
def Obligations.StepRunsDecodedCommand : Prop :=
  ∀ (s : State) (w : Word) (rest : List HostTxn) (i : Instr),
    s.pending = .regWrite 0x00 w :: rest → decodeCmd w = .op i → step s = exec i { s with pending := rest }

/-- 60 R122, R128: a write to CMD of an illegal word completes with IllegalCommand (code 1) and the decoder's ERRINFO;
the descriptor, VALID, FRAMESZ, the operand registers and both memories are unchanged. -/
def Obligations.IllegalWordIsReported : Prop :=
  ∀ (s : State) (w : Word) (rest : List HostTxn) (info : Word),
    s.pending = .regWrite 0x00 w :: rest → decodeCmd w = .illegal info →
      ∃ t, step s = .next t ∧ faultedFrom { s with pending := rest } t 1 info

/-- 60 R140: with no transaction pending the core is idle and holds its registers; that an idle step is a next state equal
to the one before is the model's choice (log entry 4). -/
def Obligations.IdleCoreHoldsItsState : Prop := ∀ s : State, s.pending = [] → step s = .next s

/-- 10 R22: STATUS reads as VALID in bit 0, ERR 1, TRUNC 2, CLIP 3, ERRCODE 11:8, and 0 in every reserved bit; the read
changes nothing in the core. -/
def Obligations.StatusReadGivesFields : Prop :=
  ∀ (s : State) (rest : List HostTxn), s.pending = .regRead 0x04 :: rest →
    ∃ v : Word, step s = .next { s with pending := rest, readData := some (.word v) }
      ∧ v.getLsbD 0 = s.status.valid ∧ v.getLsbD 1 = s.status.err ∧ v.getLsbD 2 = s.status.trunc
      ∧ v.getLsbD 3 = s.status.clip ∧ v.extractLsb' 8 4 = s.status.errcode
      ∧ v.extractLsb' 4 4 = 0 ∧ v.extractLsb' 12 20 = 0

/-- 10 R17, R18, R28, R43: a host read of each offset of the window but STATUS's (which is StatusReadGivesFields)
returns that register and changes nothing in the core: CMD and 0x3C read 0, ID its constant, and FMT0, in every state,
BITS in 7:0, ORDER in bit 8, SIGNED in bit 9 and 0 in 31:10. -/
def Obligations.WindowReadsReturnRegisters : Prop :=
  ∀ (s : State) (off : Nat) (v : Word) (rest : List HostTxn), s.pending = .regRead off :: rest →
    ((off, v) ∈ [(0x00, 0), (0x0C, s.channels.setWidth 32), (0x10, s.rateLo), (0x14, s.rateHi), (0x18, s.src),
      (0x1C, s.dst), (0x20, s.len), (0x24, s.count), (0x28, s.clipcnt), (0x2C, s.clipidx), (0x30, s.errinfo),
      (0x34, s.framesz.setWidth 32), (0x38, 0x50434D01), (0x3C, (0 : Word))] →
      step s = .next { s with pending := rest, readData := some (.word v) })
    ∧ (off = 0x08 → ∃ w : Word, step s = .next { s with pending := rest, readData := some (.word w) }
      ∧ w.extractLsb' 0 8 = s.bits ∧ w.getLsbD 8 = s.order ∧ w.getLsbD 9 = s.signed ∧ w.extractLsb' 10 22 = 0)

/-- 10 R18: a write to a read-only register, or to offset 0x3C, is ignored and changes no state. -/
def Obligations.ReadOnlyWritesAreIgnored : Prop :=
  ∀ (s : State) (off : Nat) (v : Word) (rest : List HostTxn), s.pending = .regWrite off v :: rest →
    off ∈ [0x04, 0x24, 0x28, 0x2C, 0x30, 0x34, 0x38, 0x3C] → step s = .next { s with pending := rest }

/-- 10 R28: a write to FMT0 stores BITS, ORDER and SIGNED and discards the reserved bits, so FMT0 then reads as the word
written with bits 31:10 cleared. -/
def Obligations.Fmt0WriteStoresItsFields : Prop :=
  ∀ (s : State) (v : Word) (rest : List HostTxn), s.pending = .regWrite 0x08 v :: rest →
    ∃ t, step s = .next t ∧ t.bits = v.extractLsb' 0 8 ∧ t.order = v.getLsbD 8 ∧ t.signed = v.getLsbD 9
      ∧ ∀ rest', step { t with pending := .regRead 0x08 :: rest' }
          = .next { t with pending := rest', readData := some (.word (v &&& 0x3FF)) }

/-- 10 R34: any host write to FMT0, FMT1, RATE_LO or RATE_HI, whatever value it writes, clears VALID and FRAMESZ,
stores its own register and changes no other register and no memory. -/
def Obligations.DescriptorWriteInvalidates : Prop :=
  ∀ (s : State) (off : Nat) (v : Word) (rest : List HostTxn), s.pending = .regWrite off v :: rest →
    off ∈ [0x08, 0x0C, 0x10, 0x14] →
    ∃ t, step s = .next t ∧ t.status = { s.status with valid := false } ∧ t.framesz = 0
      ∧ t.bits = (if off = 0x08 then v.extractLsb' 0 8 else s.bits)
      ∧ t.order = (if off = 0x08 then v.getLsbD 8 else s.order)
      ∧ t.signed = (if off = 0x08 then v.getLsbD 9 else s.signed)
      ∧ t.channels = (if off = 0x0C then v.extractLsb' 0 16 else s.channels)
      ∧ t.rateLo = (if off = 0x10 then v else s.rateLo) ∧ t.rateHi = (if off = 0x14 then v else s.rateHi)
      ∧ t.src = s.src ∧ t.dst = s.dst ∧ t.len = s.len ∧ t.count = s.count ∧ t.clipcnt = s.clipcnt
      ∧ t.clipidx = s.clipidx ∧ t.errinfo = s.errinfo ∧ sameBytes s t ∧ sameSamples s t

/-- 10 R35, R36, R37: a host write to SRC, DST or LEN stores all 32 bits and changes nothing else, VALID included. -/
def Obligations.OperandWritesStoreTheWord : Prop :=
  ∀ (s : State) (v : Word) (rest : List HostTxn),
    (s.pending = .regWrite 0x18 v :: rest → step s = .next { s with src := v, pending := rest })
    ∧ (s.pending = .regWrite 0x1C v :: rest → step s = .next { s with dst := v, pending := rest })
    ∧ (s.pending = .regWrite 0x20 v :: rest → step s = .next { s with len := v, pending := rest })

/-- The model's own reading of 10 R18 and 93 I15 (log entry 6): a host register access at an offset that is not a
multiple of 4 in 0x00 to 0x3C is refused by name. -/
def Obligations.MisplacedRegisterAccessIsRefused : Prop :=
  ∀ (s : State) (off : Nat) (v : Word) (rest : List HostTxn), ¬ (off % 4 = 0 ∧ off ≤ 0x3C) →
    (s.pending = .regRead off :: rest → step s = .refused (.offWindow off))
    ∧ (s.pending = .regWrite off v :: rest → step s = .refused (.offWindow off))

/-- 20 R53, R59 (log entry 7): a host write of a cell inside its space changes that cell alone, and no register; outside
the space the model stops with a fault. -/
def Obligations.HostMemoryWriteChangesOneCell : Prop :=
  ∀ (s : State) (a : Word) (b : Byte) (c : Cell) (rest : List HostTxn),
    (s.pending = .byteWrite a b :: rest →
      if a.toNat < s.byteSize then
        ∃ t, step s = .next t ∧ t.memRead a.toNat = b ∧ (∀ x, x ≠ a.toNat → t.memRead x = s.memRead x)
          ∧ { t with bytes := s.bytes } = { s with pending := rest }
      else step s = .fault (.noSuchByteCell a))
    ∧ (s.pending = .sampleWrite a c :: rest →
      if a.toNat < s.sampleSize then
        ∃ t, step s = .next t ∧ t.smpRead a.toNat = c ∧ (∀ x, x ≠ a.toNat → t.smpRead x = s.smpRead x)
          ∧ { t with samples := s.samples } = { s with pending := rest }
      else step s = .fault (.noSuchSampleCell a))

/-- 20 R53, R59 (log entry 7): a host read of a cell inside its space returns the cell and changes nothing in the core;
outside the space the model stops with a fault. -/
def Obligations.HostMemoryReadReturnsTheCell : Prop :=
  ∀ (s : State) (a : Word) (rest : List HostTxn),
    (s.pending = .byteRead a :: rest → step s = (if a.toNat < s.byteSize
      then .next { s with pending := rest, readData := some (.byte (s.memRead a.toNat)) }
      else .fault (.noSuchByteCell a)))
    ∧ (s.pending = .sampleRead a :: rest → step s = (if a.toNat < s.sampleSize
      then .next { s with pending := rest, readData := some (.cell (s.smpRead a.toNat)) }
      else .fault (.noSuchSampleCell a)))

/-- 70 R142: what every register of the window reads as after reset, CMD, 0x3C and the reserved bits included; the
descriptor is then not a legal one, and a DECODE or ENCODE before a VALIDATE reports FormatNotValidated (code 3). -/
def Obligations.ResetWindowValues : Prop :=
  State.reset.window = ([0, 0, 0, 0, 0, 0, 0, 0, 0, 0, 0, 0xFFFFFFFF, 0, 0, 0x50434D01, 0] : List Word).map some
  ∧ legalFormat State.reset.width State.reset.chans = false
  ∧ ∀ (rep flag : Bool) (ch : BitVec 16),
    (∃ t, exec (.decode rep flag ch) State.reset = .next t ∧ reportsFault t 3 0)
    ∧ ∃ t, exec (.encode rep flag ch) State.reset = .next t ∧ reportsFault t 3 0

/-- 70 R141, R143: the reset event gives every register of the window its reset value and changes neither memory. The
clauses that also keep the two sizes, the transactions still pending and the last read value are the model's deduction
(log entry 8), no rule of the spec. -/
def Obligations.ResetEventKeepsMemories : Prop :=
  ∀ (s : State) (rest : List HostTxn), s.pending = .reset :: rest →
    ∃ t, step s = .next t ∧ t.window = State.reset.window ∧ sameBytes s t ∧ sameSamples s t
      ∧ t.byteTop = s.byteTop ∧ t.sampleTop = s.sampleTop ∧ t.pending = rest ∧ t.readData = s.readData

/-! ### Rules about every command -/

/-- 10 R15, section 5: every command completes, and none writes SRC, DST, LEN, the descriptor registers, the parameters
or the host's side. -/
def Obligations.CommandsNeverWriteHostRegisters : Prop :=
  ∀ (i : Instr) (s : State), ∃ t, exec i s = .next t ∧ sameHostRegisters s t ∧ sameHostSide s t

/-- 60 R128 (precise faults): a command that reports a fault writes no cell of either memory, and leaves COUNT, CLIPCNT,
CLIPIDX, TRUNC and CLIP at their prologue values. -/
def Obligations.FaultingCommandWritesNoMemory : Prop :=
  ∀ (i : Instr) (s t : State), exec i s = .next t → t.status.err = true →
    sameBytes s t ∧ sameSamples s t ∧ resultsCleared t

/-- 20 R45: DECODE writes no byte cell, ENCODE no sample cell, NOP and VALIDATE neither. -/
def Obligations.CommandsWriteOnlyTheirSpace : Prop :=
  ∀ (i : Instr) (s t : State), exec i s = .next t →
    ((∀ rep fill ch, i ≠ .encode rep fill ch) → sameBytes s t)
    ∧ ((∀ rep strict ch, i ≠ .decode rep strict ch) → sameSamples s t)

/-- 10 R31, R33: no command reads SIGNED or the sample rate: changing them before a command changes nothing after it
but themselves. -/
def Obligations.RateAndSignedAreNeverRead : Prop :=
  ∀ (i : Instr) (s t : State) (sg : Bool) (lo hi : Word), exec i s = .next t →
    exec i { s with signed := sg, rateLo := lo, rateHi := hi }
      = .next { t with signed := sg, rateLo := lo, rateHi := hi }

/-- 10 R30: at 8 bits per sample FMT0.ORDER has no effect on any command. -/
def Obligations.OrderHasNoEffectAtEightBits : Prop :=
  ∀ (i : Instr) (s t : State) (be : Bool), s.bits = 8 → exec i s = .next t →
    exec i { s with order := be } = .next { t with order := be }

/-- 40 R84, 10 R24, R27, R39 to R42, 20 R45: every step keeps the invariant of the machine: the result fields agree
among themselves, VALID means a legal descriptor with FRAMESZ its frame size, and both memories stay in canonical form
inside their spaces. -/
def Obligations.StepKeepsInvariant : Prop := ∀ s t : State, s.Inv → step s = .next t → t.Inv

/-- The state after reset meets the invariant. -/
def Obligations.ResetMeetsInvariant : Prop := State.reset.Inv

/-- 10 R23: a step sets VALID only by a VALIDATE that finds the descriptor legal; and (40 R84, last point) a step that
leaves VALID set leaves the descriptor registers as they were. -/
def Obligations.ValidIsSetOnlyByValidate : Prop :=
  ∀ s t : State, step s = .next t → t.status.valid = true →
    (s.status.valid = true ∨ ∃ rest, s.pending = .regWrite 0x00 0x00000001 :: rest
      ∧ legalFormat s.width s.chans = true)
    ∧ t.bits = s.bits ∧ t.order = s.order ∧ t.signed = s.signed ∧ t.channels = s.channels
    ∧ t.rateLo = s.rateLo ∧ t.rateHi = s.rateHi

/-- 70 R145: after a host write to a descriptor register, a DECODE or ENCODE that comes next reports FormatNotValidated
(code 3), whatever value was written. -/
def Obligations.ConversionAfterDescriptorWriteFaults : Prop :=
  ∀ (s : State) (off : Nat) (v w : Word) (rest : List HostTxn) (i : Instr),
    s.pending = .regWrite off v :: .regWrite 0x00 w :: rest → off ∈ [0x08, 0x0C, 0x10, 0x14] →
    decodeCmd w = .op i → i ≠ .nop → i ≠ .validate →
    ∃ t u, step s = .next t ∧ step t = .next u ∧ reportsFault u 3 0 ∧ sameBytes s u ∧ sameSamples s u

/-! ### NOP and VALIDATE (40_descriptor.md) -/

/-- 40 R79, 10 R21: NOP completes with every result field at its prologue value and changes nothing else. -/
def Obligations.NopClearsTheResults : Prop :=
  ∀ s : State, ∃ t, exec .nop s = .next t ∧ noFault t ∧ resultsCleared t ∧ sameValidation s t
    ∧ sameHostRegisters s t ∧ sameBytes s t ∧ sameSamples s t ∧ sameHostSide s t

/-- 40 R82: VALIDATE of a legal descriptor sets VALID and writes FRAMESZ = C * (W div 8), and nothing else beyond the
prologue. -/
def Obligations.ValidateAcceptsLegalFormat : Prop :=
  ∀ s : State, isWidth s.bits.toNat → 1 ≤ s.channels.toNat →
    ∃ t, exec .validate s = .next t ∧ t.status.valid = true
      ∧ t.framesz.toNat = s.channels.toNat * (s.bits.toNat / 8) ∧ noFault t ∧ resultsCleared t
      ∧ sameHostRegisters s t ∧ sameBytes s t ∧ sameSamples s t ∧ sameHostSide s t

/-- 40 R83: VALIDATE of any other descriptor clears VALID and FRAMESZ and reports InvalidFormat (code 2), with ERRINFO
bit 0 when the width is not one of 8, 16, 24, 32, bit 1 when there are no channels, and no other bit. -/
def Obligations.ValidateRejectsIllegalFormat : Prop :=
  ∀ s : State, ¬ (isWidth s.bits.toNat ∧ 1 ≤ s.channels.toNat) →
    ∃ t, exec .validate s = .next t ∧ t.status.valid = false ∧ t.framesz = 0
      ∧ reportsFault t 2 t.errinfo ∧ (t.errinfo.getLsbD 0 = true ↔ ¬ isWidth s.bits.toNat)
      ∧ (t.errinfo.getLsbD 1 = true ↔ s.channels.toNat = 0) ∧ t.errinfo.toNat < 4
      ∧ sameHostRegisters s t ∧ sameBytes s t ∧ sameSamples s t ∧ sameHostSide s t

/-! ### DECODE (41_decode.md) -/

/-- 41 R87, 60 R129: DECODE reports the first of its faults in the order FormatNotValidated, ChannelOutOfRange,
TruncatedInput (STRICT = 1 only), AddressRange, with the ERRINFO of 60 R121, and nothing but the result fields
changes. -/
def Obligations.DecodeFaultsInOrder : Prop :=
  ∀ (rep strict : Bool) (ch : BitVec 16) (s : State), s.formatAgrees → ¬ decodeReady strict ch s →
    ∃ t, exec (.decode rep strict ch) s = .next t ∧
      if s.status.valid = false then faultedFrom s t 3 0
      else if s.chans ≤ ch.toNat then faultedFrom s t 4 (ch.setWidth 32)
      else if s.len.toNat % s.frameBytes ≠ 0 ∧ strict = true then
        faultedFrom s t 5 (BitVec.ofNat 32 (s.len.toNat % s.frameBytes))
      else faultedFrom s t 6
        ((if s.src.toNat + s.len.toNat ≤ s.byteSize then 0 else 1)
          ||| (if s.dst.toNat + s.len.toNat / s.frameBytes ≤ s.sampleSize then 0 else 2))

/-- 41 R98: a DECODE with no fault to report completes with COUNT = LEN div FS, TRUNC exactly when LEN mod FS is not 0,
the clip results at their prologue values; it writes only the cells DST .. DST + N - 1 and no byte cell, and keeps
VALID, FRAMESZ and every register the host writes. -/
def Obligations.DecodeCompletesWithItsFrame : Prop :=
  ∀ (rep strict : Bool) (ch : BitVec 16) (s : State), s.formatAgrees → decodeReady strict ch s →
    ∃ t, exec (.decode rep strict ch) s = .next t ∧ t.count.toNat = s.len.toNat / s.frameBytes
      ∧ t.status.trunc = decide (s.len.toNat % s.frameBytes ≠ 0) ∧ noFault t
      ∧ t.status.clip = false ∧ t.clipcnt = 0 ∧ t.clipidx = 0xFFFFFFFF
      ∧ (∀ c, ¬ (s.dst.toNat ≤ c ∧ c < s.dst.toNat + s.len.toNat / s.frameBytes) → t.smpRead c = s.smpRead c)
      ∧ sameBytes s t ∧ sameValidation s t ∧ sameHostRegisters s t ∧ sameHostSide s t

/-- 41 R89, R90, R96: at 8 bits, DECODE with REP = 1 writes to cell DST + i the code u - 128 of the byte u at
SRC + i*FS + CH, in either byte order. -/
def Obligations.DecodeEightBitCodes : Prop :=
  ∀ (strict : Bool) (ch : BitVec 16) (s : State), s.bits = 8 → decodeReady strict ch s →
    ∃ t, exec (.decode true strict ch) s = .next t ∧ ∀ i < s.len.toNat / s.chans,
      t.smpRead (s.dst.toNat + i)
        = BitVec.ofInt 64 (((s.memRead (s.src.toNat + i * s.chans + ch.toNat)).toNat : Int) - 128)

/-- 41 R89, R91, R93, R96: at 16, 24 and 32 bits little-endian, DECODE with REP = 1 writes to cell DST + i the sum of
b_j * 2^(8j), less 2^W when its bit W-1 is set. -/
def Obligations.DecodeLittleEndianCodes : Prop :=
  ∀ (strict : Bool) (ch : BitVec 16) (s : State), (s.width = 16 ∨ s.width = 24 ∨ s.width = 32) → s.order = false →
    decodeReady strict ch s →
    ∃ t, exec (.decode true strict ch) s = .next t ∧ ∀ i < s.len.toNat / s.frameBytes, ∀ u : Nat,
      u = ∑ j ∈ Finset.range s.sampleBytes,
        (s.memRead (s.src.toNat + i * s.frameBytes + ch.toNat * s.sampleBytes + j)).toNat * 2 ^ (8 * j) →
      t.smpRead (s.dst.toNat + i)
        = BitVec.ofInt 64 (if u < 2 ^ (s.width - 1) then (u : Int) else (u : Int) - 2 ^ s.width)

/-- 41 R89, R92, R93, R96: at 16, 24 and 32 bits big-endian, DECODE with REP = 1 writes to cell DST + i the sum of
b_j * 2^(8(B-1-j)), less 2^W when its bit W-1 is set. -/
def Obligations.DecodeBigEndianCodes : Prop :=
  ∀ (strict : Bool) (ch : BitVec 16) (s : State), (s.width = 16 ∨ s.width = 24 ∨ s.width = 32) → s.order = true →
    decodeReady strict ch s →
    ∃ t, exec (.decode true strict ch) s = .next t ∧ ∀ i < s.len.toNat / s.frameBytes, ∀ u : Nat,
      u = ∑ j ∈ Finset.range s.sampleBytes,
        (s.memRead (s.src.toNat + i * s.frameBytes + ch.toNat * s.sampleBytes + j)).toNat
          * 2 ^ (8 * (s.sampleBytes - 1 - j)) →
      t.smpRead (s.dst.toNat + i)
        = BitVec.ofInt 64 (if u < 2 ^ (s.width - 1) then (u : Int) else (u : Int) - 2 ^ s.width)

/-- 41 R94, R95 (with 30 R66): DECODE with REP = 0 writes to each cell the binary64 value whose exact rational is the
code DECODE with REP = 1 writes there, divided by the positive NF = 2^(W-1): finite, in [-1, 1), and +0.0 for code 0. -/
def Obligations.DecodeNormalizedIsExact : Prop :=
  ∀ (strict : Bool) (ch : BitVec 16) (s : State), s.formatAgrees → decodeReady strict ch s →
    ∃ t u, exec (.decode false strict ch) s = .next t ∧ exec (.decode true strict ch) s = .next u
      ∧ ∀ i < s.len.toNat / s.frameBytes,
        isFinite (t.smpRead (s.dst.toNat + i)) = true
        ∧ realOf (t.smpRead (s.dst.toNat + i)) = ((u.smpRead (s.dst.toNat + i)).toInt : ℚ) / 2 ^ (s.width - 1)
        ∧ -1 ≤ realOf (t.smpRead (s.dst.toNat + i)) ∧ realOf (t.smpRead (s.dst.toNat + i)) < 1
        ∧ (u.smpRead (s.dst.toNat + i) = 0 → t.smpRead (s.dst.toNat + i) = 0)

/-- 41 R100 at the level of codes: the codes of the storage bytes of a sample are exactly SMIN .. SMAX, in either byte
order. -/
def Obligations.DecodedCodesAreExactlyTheRange : Prop :=
  ∀ (be : Bool) (W : Nat) (k : Int), isWidth W →
    ((∃ b : Nat → Byte, codeOfBytes be (W / 8) b = k) ↔ -2 ^ (W - 1) ≤ k ∧ k ≤ 2 ^ (W - 1) - 1)

/-- 41 R89: DECODE reads only the bytes of its channel in complete frames: two states that agree on every register and on
those bytes give the same cells. -/
def Obligations.DecodeReadsOnlyItsChannel : Prop :=
  ∀ (rep strict : Bool) (ch : BitVec 16) (s : State) (m : Memory 8) (t : State),
    (∀ i < s.len.toNat / s.frameBytes, ∀ j < s.sampleBytes,
      State.memRead { s with bytes := m } (s.src.toNat + i * s.frameBytes + ch.toNat * s.sampleBytes + j)
        = s.memRead (s.src.toNat + i * s.frameBytes + ch.toNat * s.sampleBytes + j)) →
    exec (.decode rep strict ch) s = .next t →
      exec (.decode rep strict ch) { s with bytes := m } = .next { t with bytes := m }

/-- 41 R88: on an input of whole frames STRICT has no effect. -/
def Obligations.StrictHasNoEffectOnWholeFrames : Prop :=
  ∀ (rep : Bool) (ch : BitVec 16) (s : State), s.len.toNat % s.frameBytes = 0 →
    exec (.decode rep true ch) s = exec (.decode rep false ch) s

/-! ### ENCODE (42_encode.md) -/

/-- 42 R102, 60 R129: ENCODE reports the first of its faults in the order FormatNotValidated, ChannelOutOfRange,
AddressRange, with the ERRINFO of 60 R121, and nothing but the result fields changes. The destination check covers
whole frames with FILL or without. -/
def Obligations.EncodeFaultsInOrder : Prop :=
  ∀ (rep fill : Bool) (ch : BitVec 16) (s : State), ¬ encodeReady ch s →
    ∃ t, exec (.encode rep fill ch) s = .next t ∧
      if s.status.valid = false then faultedFrom s t 3 0
      else if s.chans ≤ ch.toNat then faultedFrom s t 4 (ch.setWidth 32)
      else faultedFrom s t 6
        ((if s.src.toNat + s.len.toNat ≤ s.sampleSize then 0 else 1)
          ||| (if s.dst.toNat + s.len.toNat * s.frameBytes ≤ s.byteSize then 0 else 2))

/-- 42 R104: the class of a pattern by the value it denotes: NAN; LOW below -1, and -infinity; HIGH at 1 or above, and
+infinity; IN otherwise, both zeros included. -/
def Obligations.ClassFollowsTheValue : Prop :=
  ∀ p : Cell, (classify p = .nan ↔ isNaN p = true)
    ∧ (isFinite p = true → (classify p = .low ↔ realOf p < -1) ∧ (classify p = .high ↔ 1 ≤ realOf p)
      ∧ (classify p = .inside ↔ -1 ≤ realOf p ∧ realOf p < 1))
    ∧ (isFinite p = false → isNaN p = false → classify p = if f64Sign p then .low else .high)

/-- 42 R108: an IN sample is quantized to trunc(real(x) * NF), toward zero, within SMIN .. SMAX, and not clipped. -/
def Obligations.QuantizationTruncatesTowardZero : Prop :=
  ∀ (W : Nat) (p : Cell), isWidth W → classify p = .inside →
    quantize false W p = (truncQ (realOf p * 2 ^ (W - 1)), false)
    ∧ sMin W ≤ truncQ (realOf p * 2 ^ (W - 1)) ∧ truncQ (realOf p * 2 ^ (W - 1)) ≤ sMax W

/-- 42 R105, R106, R107: a sample below -1 has the code SMIN, one at or above 1 the code SMAX, a NaN the code 0, and each
counts as clipped. -/
def Obligations.OutOfRangeSamplesClip : Prop :=
  ∀ (W : Nat) (p : Cell),
    (isNaN p = true → quantize false W p = (0, true))
    ∧ (isFinite p = true → realOf p < -1 → quantize false W p = (-2 ^ (W - 1), true))
    ∧ (isFinite p = true → 1 ≤ realOf p → quantize false W p = (2 ^ (W - 1) - 1, true))
    ∧ (isFinite p = false → isNaN p = false →
      quantize false W p = ((if f64Sign p then -2 ^ (W - 1) else 2 ^ (W - 1) - 1), true))

/-- 42 R109: with REP = 1 the cell is the signed integer k; below SMIN the code is SMIN, above SMAX it is SMAX, each
clipped, and otherwise it is k, not clipped; and this is the REP = 0 rule at x = k / NF: x is below -1 exactly when
k < SMIN, at or above 1 exactly when k > SMAX, and trunc(x * NF) is k. -/
def Obligations.IntegerSamplesClip : Prop :=
  ∀ (W : Nat) (p : Cell) (k : Int) (x : ℚ), isWidth W → k = p.toInt → x = (k : ℚ) / 2 ^ (W - 1) →
    (k < sMin W → quantize true W p = (sMin W, true))
    ∧ (sMax W < k → quantize true W p = (sMax W, true))
    ∧ (sMin W ≤ k → k ≤ sMax W → quantize true W p = (k, false))
    ∧ (x < -1 ↔ k < sMin W) ∧ (1 ≤ x ↔ sMax W < k) ∧ truncQ (x * 2 ^ (W - 1)) = k

/-- 42 R119: for an IN sample x, |x - code/NF| < 1/NF, and code/NF lies between 0 and x. -/
def Obligations.QuantizationErrorBound : Prop :=
  ∀ (W : Nat) (p : Cell) (q : ℚ), isWidth W → classify p = .inside →
    q = ((quantize false W p).1 : ℚ) / 2 ^ (W - 1) →
    |realOf p - q| < 1 / 2 ^ (W - 1)
    ∧ (0 ≤ realOf p → 0 ≤ q ∧ q ≤ realOf p) ∧ (realOf p ≤ 0 → realOf p ≤ q ∧ q ≤ 0)

/-- 42 R114, R116: an ENCODE with no fault to report completes with COUNT = LEN, CLIPCNT the number of clipped samples,
CLIPIDX the least clipped index or 0xFFFFFFFF, CLIP set exactly when a sample was clipped, TRUNC and the fault fields 0;
it writes no sample cell and keeps VALID, FRAMESZ and every register the host writes. -/
def Obligations.EncodeReportsItsClipping : Prop :=
  ∀ (rep fill : Bool) (ch : BitVec 16) (s : State), encodeReady ch s →
    ∃ t, exec (.encode rep fill ch) s = .next t ∧ t.count = s.len
      ∧ t.clipcnt.toNat = ((Finset.range s.len.toNat).filter fun i => (inputCode rep s i).2 = true).card
      ∧ (t.clipcnt = 0 → t.clipidx = 0xFFFFFFFF)
      ∧ (t.clipcnt ≠ 0 → IsLeast { i | i < s.len.toNat ∧ (inputCode rep s i).2 = true } t.clipidx.toNat)
      ∧ t.status.clip = decide (t.clipcnt ≠ 0) ∧ t.status.trunc = false ∧ noFault t
      ∧ sameSamples s t ∧ sameValidation s t ∧ sameHostRegisters s t ∧ sameHostSide s t

/-- 42 R110, R113: at 8 bits, ENCODE stores code + 128 at DST + i*FS + CH, in either byte order. -/
def Obligations.EncodeEightBitBytes : Prop :=
  ∀ (rep fill : Bool) (ch : BitVec 16) (s : State), s.bits = 8 → encodeReady ch s →
    ∃ t, exec (.encode rep fill ch) s = .next t ∧ ∀ i < s.len.toNat,
      ((t.memRead (s.dst.toNat + i * s.chans + ch.toNat)).toNat : Int) = (inputCode rep s i).1 + 128

/-- 42 R111, R112, R113: at 16, 24 and 32 bits, ENCODE stores at DST + i*FS + CH*B + j byte j of the code's W-bit two's
complement, counted from the least significant byte little-endian and from the most significant big-endian. -/
def Obligations.EncodeMultiByteBytes : Prop :=
  ∀ (rep fill : Bool) (ch : BitVec 16) (s : State), (s.width = 16 ∨ s.width = 24 ∨ s.width = 32) → encodeReady ch s →
    ∃ t, exec (.encode rep fill ch) s = .next t ∧ ∀ i < s.len.toNat, ∀ j < s.sampleBytes,
      ((t.memRead (s.dst.toNat + i * s.frameBytes + ch.toNat * s.sampleBytes + j)).toNat : Int)
        = (inputCode rep s i).1 % 2 ^ s.width
            / 2 ^ (8 * (if s.order then s.sampleBytes - 1 - j else j)) % 256

/-- 42 R113: with FILL = 1 the bytes of every other channel of each frame hold silence, 0x80 at one byte per sample and
0x00 otherwise; with FILL = 0 they keep what they held. -/
def Obligations.EncodeFillsOtherChannels : Prop :=
  ∀ (rep fill : Bool) (ch : BitVec 16) (s : State), s.formatAgrees → encodeReady ch s →
    ∃ t, exec (.encode rep fill ch) s = .next t ∧ ∀ i < s.len.toNat, ∀ c < s.chans, c ≠ ch.toNat →
      ∀ j < s.sampleBytes, ∀ a, a = s.dst.toNat + i * s.frameBytes + c * s.sampleBytes + j →
        t.memRead a = if fill then (if s.width = 8 then 0x80 else 0x00) else s.memRead a

/-- 42 R113, R115: ENCODE changes no byte outside the LEN frames at DST. -/
def Obligations.EncodeWritesOnlyItsFrames : Prop :=
  ∀ (rep fill : Bool) (ch : BitVec 16) (s : State), encodeReady ch s →
    ∃ t, exec (.encode rep fill ch) s = .next t ∧
      ∀ a, ¬ (s.dst.toNat ≤ a ∧ a < s.dst.toNat + s.len.toNat * s.frameBytes) → t.memRead a = s.memRead a

/-- 42 R113: with one channel FILL has no effect. -/
def Obligations.FillHasNoEffectOnOneChannel : Prop :=
  ∀ (rep : Bool) (ch : BitVec 16) (s : State), s.channels = 1 →
    exec (.encode rep true ch) s = exec (.encode rep false ch) s

/-- 42 R103: ENCODE reads only the LEN cells at SRC: two states that agree on every register and on those cells give the
same bytes and the same results. -/
def Obligations.EncodeReadsOnlyItsCells : Prop :=
  ∀ (rep fill : Bool) (ch : BitVec 16) (s : State) (m : Memory 64) (t : State),
    (∀ i < s.len.toNat, State.smpRead { s with samples := m } (s.src.toNat + i) = s.smpRead (s.src.toNat + i)) →
    exec (.encode rep fill ch) s = .next t →
      exec (.encode rep fill ch) { s with samples := m } = .next { t with samples := m }

/-- 42 R118: the round trip. Cells that hold codes in SMIN .. SMAX, as integers (REP = 1) or as normalized samples
(REP = 0), encoded to frames at DST and decoded from there with the same REP and channel, FILL and STRICT either way,
come back bit for bit, and no sample is clipped. -/
def Obligations.RoundTripIsExact : Prop :=
  ∀ (rep fill strict : Bool) (ch : BitVec 16) (s : State) (back : Word), s.formatAgrees → encodeReady ch s →
    s.len.toNat * s.frameBytes < 2 ^ 32 → back.toNat + s.len.toNat ≤ s.sampleSize →
    (∀ i < s.len.toNat, ∃ k : Int, sMin s.width ≤ k ∧ k ≤ sMax s.width
      ∧ s.smpRead (s.src.toNat + i) = if rep then BitVec.ofInt 64 k else normPattern s.width k) →
    ∃ t u, exec (.encode rep fill ch) s = .next t ∧ t.clipcnt = 0 ∧ noFault t
      ∧ exec (.decode rep strict ch)
          { t with src := s.dst, dst := back, len := BitVec.ofNat 32 (s.len.toNat * s.frameBytes) } = .next u
      ∧ noFault u ∧ u.count = s.len
      ∧ ∀ i < s.len.toNat, u.smpRead (back.toNat + i) = s.smpRead (s.src.toNat + i)
end

