-- ==== Sys2Proof/Laws/Memory.lean ====
section
/-! SUPPORT. The laws of memory: what a write and a fill leave in each cell, and that both keep the canonical form. -/

namespace Sys2Proof.Machine

variable {w : Nat}

@[simp] theorem Memory.get?_nil (a : Nat) : Memory.get? ([] : Memory w) a = none := rfl

theorem Memory.get?_cons (b : Nat) (x : BitVec w) (m : Memory w) (a : Nat) :
    Memory.get? ((b, x) :: m) a = if a = b then some x else Memory.get? m a := rfl

/-- A read after a write gives the value written at its address and the old value elsewhere. -/
theorem Memory.get?_write (m : Memory w) (a : Nat) (v : BitVec w) (c : Nat) :
    Memory.get? (Memory.write m a v) c = if c = a then some v else Memory.get? m c := by
  induction m with
  | nil => simp [Memory.write, Memory.get?]
  | cons p m ih =>
    obtain ⟨b, x⟩ := p
    simp only [Memory.write]
    split
    · simp only [Memory.get?_cons]
    · split
      · subst_vars; simp only [Memory.get?_cons]; split <;> rfl
      · simp only [Memory.get?_cons, ih]; split_ifs <;> first | rfl | omega

@[simp] theorem Memory.get?_write_same (m : Memory w) (a : Nat) (v : BitVec w) :
    Memory.get? (Memory.write m a v) a = some v := by simp [Memory.get?_write]

theorem Memory.get?_write_other (m : Memory w) {a c : Nat} (v : BitVec w) (h : c ≠ a) :
    Memory.get? (Memory.write m a v) c = Memory.get? m c := by simp [Memory.get?_write, h]

/-- What a write lists: the cell written, or a cell listed before. -/
theorem Memory.mem_write {m : Memory w} {a : Nat} {v : BitVec w} {c : Nat × BitVec w}
    (h : c ∈ Memory.write m a v) : c = (a, v) ∨ c ∈ m := by
  induction m with
  | nil => simpa [Memory.write] using h
  | cons p m ih =>
    obtain ⟨b, x⟩ := p
    simp only [Memory.write] at h
    split at h
    · simpa using h
    · split at h
      · rcases List.mem_cons.1 h with h | h <;> simp [h]
      · rcases List.mem_cons.1 h with h | h
        · simp [h]
        · rcases ih h with h | h <;> simp [h]

theorem Memory.wf_write {m : Memory w} (h : Memory.wf m) (a : Nat) (v : BitVec w) :
    Memory.wf (Memory.write m a v) := by
  induction m with
  | nil => simp [Memory.write]
  | cons p m ih =>
    obtain ⟨b, x⟩ := p
    obtain ⟨hb, hm⟩ := List.pairwise_cons.1 h
    simp only [Memory.write]
    split
    · next hab =>
      refine List.pairwise_cons.2 ⟨fun c hc => ?_, h⟩
      rcases List.mem_cons.1 hc with rfl | hc
      · exact hab
      · exact Nat.lt_trans hab (hb c hc)
    · split
      · next hab => subst hab; exact List.pairwise_cons.2 ⟨hb, hm⟩
      · refine List.pairwise_cons.2 ⟨fun c hc => ?_, ih hm⟩
        rcases Memory.mem_write hc with rfl | hc
        · show b < a; omega
        · exact hb c hc

theorem Memory.within_write {m : Memory w} {size : Nat} (h : Memory.within m size) {a : Nat} (ha : a < size)
    (v : BitVec w) : Memory.within (Memory.write m a v) size := fun c hc => by
  rcases Memory.mem_write hc with rfl | hc
  · exact ha
  · exact h c hc

/-- A fill gives the cells of its range the values of `f` and leaves every other cell alone. -/
theorem Memory.get?_fill (m : Memory w) (base : Nat) (f : Nat → BitVec w) (n c : Nat) :
    Memory.get? (Memory.fill m base f n) c
      = if base ≤ c ∧ c < base + n then some (f (c - base)) else Memory.get? m c := by
  induction n with
  | zero => simp only [Memory.fill]; rw [if_neg (by omega)]
  | succ n ih =>
    simp only [Memory.fill, Memory.get?_write, ih]
    by_cases h : c = base + n
    · subst h; simp
    · rw [if_neg h]
      by_cases h2 : base ≤ c ∧ c < base + n
      · rw [if_pos h2, if_pos (by omega)]
      · rw [if_neg h2, if_neg (by omega)]

theorem Memory.get?_fill_inside (m : Memory w) (base : Nat) (f : Nat → BitVec w) {n j : Nat} (h : j < n) :
    Memory.get? (Memory.fill m base f n) (base + j) = some (f j) := by
  rw [Memory.get?_fill, if_pos (by omega), Nat.add_sub_cancel_left]

theorem Memory.get?_fill_outside (m : Memory w) (base : Nat) (f : Nat → BitVec w) {n c : Nat}
    (h : c < base ∨ base + n ≤ c) : Memory.get? (Memory.fill m base f n) c = Memory.get? m c := by
  rw [Memory.get?_fill, if_neg (by omega)]

theorem Memory.wf_fill {m : Memory w} (h : Memory.wf m) (base : Nat) (f : Nat → BitVec w) (n : Nat) :
    Memory.wf (Memory.fill m base f n) := by
  induction n with
  | zero => exact h
  | succ n ih => exact Memory.wf_write ih _ _

theorem Memory.within_fill {m : Memory w} {size : Nat} (h : Memory.within m size) {base n : Nat}
    (hn : base + n ≤ size) (f : Nat → BitVec w) : Memory.within (Memory.fill m base f n) size := by
  induction n with
  | zero => exact h
  | succ n ih => exact Memory.within_write (ih (by omega)) (by omega) _

/-- A fill depends on `f` only below `n`. -/
theorem Memory.fill_congr (m : Memory w) (base : Nat) {f g : Nat → BitVec w} {n : Nat}
    (h : ∀ i < n, f i = g i) : Memory.fill m base f n = Memory.fill m base g n := by
  induction n with
  | zero => rfl
  | succ n ih => simp only [Memory.fill]; rw [ih fun i hi => h i (by omega), h n (by omega)]

end Sys2Proof.Machine
end

