-- ==== Sys2Proof/Laws/State.lean ====
section
/-! SUPPORT. One lemma per field per named update of State: which fields an operation keeps, and what it gives the ones
it writes. -/

namespace Sys2Proof.Machine

/-! ### The prologue (10 R21) -/

@[simp] theorem prologue_status (s : State) : (prologue s).status = statusCleared s.status := rfl
@[simp] theorem prologue_bits (s : State) : (prologue s).bits = s.bits := rfl
@[simp] theorem prologue_order (s : State) : (prologue s).order = s.order := rfl
@[simp] theorem prologue_signed (s : State) : (prologue s).signed = s.signed := rfl
@[simp] theorem prologue_channels (s : State) : (prologue s).channels = s.channels := rfl
@[simp] theorem prologue_rateLo (s : State) : (prologue s).rateLo = s.rateLo := rfl
@[simp] theorem prologue_rateHi (s : State) : (prologue s).rateHi = s.rateHi := rfl
@[simp] theorem prologue_src (s : State) : (prologue s).src = s.src := rfl
@[simp] theorem prologue_dst (s : State) : (prologue s).dst = s.dst := rfl
@[simp] theorem prologue_len (s : State) : (prologue s).len = s.len := rfl
@[simp] theorem prologue_count (s : State) : (prologue s).count = 0 := rfl
@[simp] theorem prologue_clipcnt (s : State) : (prologue s).clipcnt = 0 := rfl
@[simp] theorem prologue_clipidx (s : State) : (prologue s).clipidx = 0xFFFFFFFF := rfl
@[simp] theorem prologue_errinfo (s : State) : (prologue s).errinfo = 0 := rfl
@[simp] theorem prologue_framesz (s : State) : (prologue s).framesz = s.framesz := rfl
@[simp] theorem prologue_bytes (s : State) : (prologue s).bytes = s.bytes := rfl
@[simp] theorem prologue_samples (s : State) : (prologue s).samples = s.samples := rfl
@[simp] theorem prologue_byteTop (s : State) : (prologue s).byteTop = s.byteTop := rfl
@[simp] theorem prologue_sampleTop (s : State) : (prologue s).sampleTop = s.sampleTop := rfl
@[simp] theorem prologue_pending (s : State) : (prologue s).pending = s.pending := rfl
@[simp] theorem prologue_readData (s : State) : (prologue s).readData = s.readData := rfl

/-! ### Raising a fault (60 R128) -/

@[simp] theorem raiseFault_status (code : FaultCode) (info : Word) (s : State) :
    (raiseFault code info s).status = statusFaulted code s.status := rfl
@[simp] theorem raiseFault_bits (code : FaultCode) (info : Word) (s : State) :
    (raiseFault code info s).bits = s.bits := rfl
@[simp] theorem raiseFault_order (code : FaultCode) (info : Word) (s : State) :
    (raiseFault code info s).order = s.order := rfl
@[simp] theorem raiseFault_signed (code : FaultCode) (info : Word) (s : State) :
    (raiseFault code info s).signed = s.signed := rfl
@[simp] theorem raiseFault_channels (code : FaultCode) (info : Word) (s : State) :
    (raiseFault code info s).channels = s.channels := rfl
@[simp] theorem raiseFault_rateLo (code : FaultCode) (info : Word) (s : State) :
    (raiseFault code info s).rateLo = s.rateLo := rfl
@[simp] theorem raiseFault_rateHi (code : FaultCode) (info : Word) (s : State) :
    (raiseFault code info s).rateHi = s.rateHi := rfl
@[simp] theorem raiseFault_src (code : FaultCode) (info : Word) (s : State) :
    (raiseFault code info s).src = s.src := rfl
@[simp] theorem raiseFault_dst (code : FaultCode) (info : Word) (s : State) :
    (raiseFault code info s).dst = s.dst := rfl
@[simp] theorem raiseFault_len (code : FaultCode) (info : Word) (s : State) :
    (raiseFault code info s).len = s.len := rfl
@[simp] theorem raiseFault_count (code : FaultCode) (info : Word) (s : State) :
    (raiseFault code info s).count = s.count := rfl
@[simp] theorem raiseFault_clipcnt (code : FaultCode) (info : Word) (s : State) :
    (raiseFault code info s).clipcnt = s.clipcnt := rfl
@[simp] theorem raiseFault_clipidx (code : FaultCode) (info : Word) (s : State) :
    (raiseFault code info s).clipidx = s.clipidx := rfl
@[simp] theorem raiseFault_errinfo (code : FaultCode) (info : Word) (s : State) :
    (raiseFault code info s).errinfo = info := rfl
@[simp] theorem raiseFault_framesz (code : FaultCode) (info : Word) (s : State) :
    (raiseFault code info s).framesz = s.framesz := rfl
@[simp] theorem raiseFault_bytes (code : FaultCode) (info : Word) (s : State) :
    (raiseFault code info s).bytes = s.bytes := rfl
@[simp] theorem raiseFault_samples (code : FaultCode) (info : Word) (s : State) :
    (raiseFault code info s).samples = s.samples := rfl
@[simp] theorem raiseFault_byteTop (code : FaultCode) (info : Word) (s : State) :
    (raiseFault code info s).byteTop = s.byteTop := rfl
@[simp] theorem raiseFault_sampleTop (code : FaultCode) (info : Word) (s : State) :
    (raiseFault code info s).sampleTop = s.sampleTop := rfl
@[simp] theorem raiseFault_pending (code : FaultCode) (info : Word) (s : State) :
    (raiseFault code info s).pending = s.pending := rfl
@[simp] theorem raiseFault_readData (code : FaultCode) (info : Word) (s : State) :
    (raiseFault code info s).readData = s.readData := rfl

/-! ### Clearing VALID (10 R34) -/

@[simp] theorem invalidate_status (s : State) : (invalidate s).status = { s.status with valid := false } := rfl
@[simp] theorem invalidate_bits (s : State) : (invalidate s).bits = s.bits := rfl
@[simp] theorem invalidate_order (s : State) : (invalidate s).order = s.order := rfl
@[simp] theorem invalidate_signed (s : State) : (invalidate s).signed = s.signed := rfl
@[simp] theorem invalidate_channels (s : State) : (invalidate s).channels = s.channels := rfl
@[simp] theorem invalidate_rateLo (s : State) : (invalidate s).rateLo = s.rateLo := rfl
@[simp] theorem invalidate_rateHi (s : State) : (invalidate s).rateHi = s.rateHi := rfl
@[simp] theorem invalidate_src (s : State) : (invalidate s).src = s.src := rfl
@[simp] theorem invalidate_dst (s : State) : (invalidate s).dst = s.dst := rfl
@[simp] theorem invalidate_len (s : State) : (invalidate s).len = s.len := rfl
@[simp] theorem invalidate_count (s : State) : (invalidate s).count = s.count := rfl
@[simp] theorem invalidate_clipcnt (s : State) : (invalidate s).clipcnt = s.clipcnt := rfl
@[simp] theorem invalidate_clipidx (s : State) : (invalidate s).clipidx = s.clipidx := rfl
@[simp] theorem invalidate_errinfo (s : State) : (invalidate s).errinfo = s.errinfo := rfl
@[simp] theorem invalidate_framesz (s : State) : (invalidate s).framesz = 0 := rfl
@[simp] theorem invalidate_bytes (s : State) : (invalidate s).bytes = s.bytes := rfl
@[simp] theorem invalidate_samples (s : State) : (invalidate s).samples = s.samples := rfl
@[simp] theorem invalidate_byteTop (s : State) : (invalidate s).byteTop = s.byteTop := rfl
@[simp] theorem invalidate_sampleTop (s : State) : (invalidate s).sampleTop = s.sampleTop := rfl
@[simp] theorem invalidate_pending (s : State) : (invalidate s).pending = s.pending := rfl
@[simp] theorem invalidate_readData (s : State) : (invalidate s).readData = s.readData := rfl

/-! ### A VALIDATE that accepts (40 R82) -/

@[simp] theorem acceptFormat_status (s : State) : (acceptFormat s).status = { s.status with valid := true } := rfl
@[simp] theorem acceptFormat_bits (s : State) : (acceptFormat s).bits = s.bits := rfl
@[simp] theorem acceptFormat_order (s : State) : (acceptFormat s).order = s.order := rfl
@[simp] theorem acceptFormat_signed (s : State) : (acceptFormat s).signed = s.signed := rfl
@[simp] theorem acceptFormat_channels (s : State) : (acceptFormat s).channels = s.channels := rfl
@[simp] theorem acceptFormat_rateLo (s : State) : (acceptFormat s).rateLo = s.rateLo := rfl
@[simp] theorem acceptFormat_rateHi (s : State) : (acceptFormat s).rateHi = s.rateHi := rfl
@[simp] theorem acceptFormat_src (s : State) : (acceptFormat s).src = s.src := rfl
@[simp] theorem acceptFormat_dst (s : State) : (acceptFormat s).dst = s.dst := rfl
@[simp] theorem acceptFormat_len (s : State) : (acceptFormat s).len = s.len := rfl
@[simp] theorem acceptFormat_count (s : State) : (acceptFormat s).count = s.count := rfl
@[simp] theorem acceptFormat_clipcnt (s : State) : (acceptFormat s).clipcnt = s.clipcnt := rfl
@[simp] theorem acceptFormat_clipidx (s : State) : (acceptFormat s).clipidx = s.clipidx := rfl
@[simp] theorem acceptFormat_errinfo (s : State) : (acceptFormat s).errinfo = s.errinfo := rfl
@[simp] theorem acceptFormat_framesz (s : State) :
    (acceptFormat s).framesz = BitVec.ofNat 18 (s.chans * (s.width / 8)) := rfl
@[simp] theorem acceptFormat_bytes (s : State) : (acceptFormat s).bytes = s.bytes := rfl
@[simp] theorem acceptFormat_samples (s : State) : (acceptFormat s).samples = s.samples := rfl
@[simp] theorem acceptFormat_byteTop (s : State) : (acceptFormat s).byteTop = s.byteTop := rfl
@[simp] theorem acceptFormat_sampleTop (s : State) : (acceptFormat s).sampleTop = s.sampleTop := rfl
@[simp] theorem acceptFormat_pending (s : State) : (acceptFormat s).pending = s.pending := rfl
@[simp] theorem acceptFormat_readData (s : State) : (acceptFormat s).readData = s.readData := rfl

/-! ### A DECODE that runs (41 R97) -/

@[simp] theorem decodeRun_status (rep : Bool) (ch : BitVec 16) (s : State) :
    (decodeRun rep ch s).status = { s.status with trunc := truncFlag (decodeRem s) } := rfl
@[simp] theorem decodeRun_bits (rep : Bool) (ch : BitVec 16) (s : State) : (decodeRun rep ch s).bits = s.bits := rfl
@[simp] theorem decodeRun_order (rep : Bool) (ch : BitVec 16) (s : State) :
    (decodeRun rep ch s).order = s.order := rfl
@[simp] theorem decodeRun_signed (rep : Bool) (ch : BitVec 16) (s : State) :
    (decodeRun rep ch s).signed = s.signed := rfl
@[simp] theorem decodeRun_channels (rep : Bool) (ch : BitVec 16) (s : State) :
    (decodeRun rep ch s).channels = s.channels := rfl
@[simp] theorem decodeRun_rateLo (rep : Bool) (ch : BitVec 16) (s : State) :
    (decodeRun rep ch s).rateLo = s.rateLo := rfl
@[simp] theorem decodeRun_rateHi (rep : Bool) (ch : BitVec 16) (s : State) :
    (decodeRun rep ch s).rateHi = s.rateHi := rfl
@[simp] theorem decodeRun_src (rep : Bool) (ch : BitVec 16) (s : State) : (decodeRun rep ch s).src = s.src := rfl
@[simp] theorem decodeRun_dst (rep : Bool) (ch : BitVec 16) (s : State) : (decodeRun rep ch s).dst = s.dst := rfl
@[simp] theorem decodeRun_len (rep : Bool) (ch : BitVec 16) (s : State) : (decodeRun rep ch s).len = s.len := rfl
@[simp] theorem decodeRun_count (rep : Bool) (ch : BitVec 16) (s : State) :
    (decodeRun rep ch s).count = BitVec.ofNat 32 (decodeFrames s) := rfl
@[simp] theorem decodeRun_clipcnt (rep : Bool) (ch : BitVec 16) (s : State) :
    (decodeRun rep ch s).clipcnt = s.clipcnt := rfl
@[simp] theorem decodeRun_clipidx (rep : Bool) (ch : BitVec 16) (s : State) :
    (decodeRun rep ch s).clipidx = s.clipidx := rfl
@[simp] theorem decodeRun_errinfo (rep : Bool) (ch : BitVec 16) (s : State) :
    (decodeRun rep ch s).errinfo = s.errinfo := rfl
@[simp] theorem decodeRun_framesz (rep : Bool) (ch : BitVec 16) (s : State) :
    (decodeRun rep ch s).framesz = s.framesz := rfl
@[simp] theorem decodeRun_bytes (rep : Bool) (ch : BitVec 16) (s : State) :
    (decodeRun rep ch s).bytes = s.bytes := rfl
@[simp] theorem decodeRun_samples (rep : Bool) (ch : BitVec 16) (s : State) :
    (decodeRun rep ch s).samples = Memory.fill s.samples s.dst.toNat
      (fun i => cellOfCode rep s.width (decodedCode s ch.toNat i)) (decodeFrames s) := rfl
@[simp] theorem decodeRun_byteTop (rep : Bool) (ch : BitVec 16) (s : State) :
    (decodeRun rep ch s).byteTop = s.byteTop := rfl
@[simp] theorem decodeRun_sampleTop (rep : Bool) (ch : BitVec 16) (s : State) :
    (decodeRun rep ch s).sampleTop = s.sampleTop := rfl
@[simp] theorem decodeRun_pending (rep : Bool) (ch : BitVec 16) (s : State) :
    (decodeRun rep ch s).pending = s.pending := rfl
@[simp] theorem decodeRun_readData (rep : Bool) (ch : BitVec 16) (s : State) :
    (decodeRun rep ch s).readData = s.readData := rfl

/-! ### An ENCODE that runs (42 R115) -/

@[simp] theorem encodeRun_status (rep fill : Bool) (ch : BitVec 16) (s : State) :
    (encodeRun rep fill ch s).status = { s.status with clip := clipFlag (clippedCount rep s s.len.toNat) } := rfl
@[simp] theorem encodeRun_bits (rep fill : Bool) (ch : BitVec 16) (s : State) :
    (encodeRun rep fill ch s).bits = s.bits := rfl
@[simp] theorem encodeRun_order (rep fill : Bool) (ch : BitVec 16) (s : State) :
    (encodeRun rep fill ch s).order = s.order := rfl
@[simp] theorem encodeRun_signed (rep fill : Bool) (ch : BitVec 16) (s : State) :
    (encodeRun rep fill ch s).signed = s.signed := rfl
@[simp] theorem encodeRun_channels (rep fill : Bool) (ch : BitVec 16) (s : State) :
    (encodeRun rep fill ch s).channels = s.channels := rfl
@[simp] theorem encodeRun_rateLo (rep fill : Bool) (ch : BitVec 16) (s : State) :
    (encodeRun rep fill ch s).rateLo = s.rateLo := rfl
@[simp] theorem encodeRun_rateHi (rep fill : Bool) (ch : BitVec 16) (s : State) :
    (encodeRun rep fill ch s).rateHi = s.rateHi := rfl
@[simp] theorem encodeRun_src (rep fill : Bool) (ch : BitVec 16) (s : State) :
    (encodeRun rep fill ch s).src = s.src := rfl
@[simp] theorem encodeRun_dst (rep fill : Bool) (ch : BitVec 16) (s : State) :
    (encodeRun rep fill ch s).dst = s.dst := rfl
@[simp] theorem encodeRun_len (rep fill : Bool) (ch : BitVec 16) (s : State) :
    (encodeRun rep fill ch s).len = s.len := rfl
@[simp] theorem encodeRun_count (rep fill : Bool) (ch : BitVec 16) (s : State) :
    (encodeRun rep fill ch s).count = s.len := rfl
@[simp] theorem encodeRun_clipcnt (rep fill : Bool) (ch : BitVec 16) (s : State) :
    (encodeRun rep fill ch s).clipcnt = BitVec.ofNat 32 (clippedCount rep s s.len.toNat) := rfl
@[simp] theorem encodeRun_clipidx (rep fill : Bool) (ch : BitVec 16) (s : State) :
    (encodeRun rep fill ch s).clipidx = firstClipped rep s s.len.toNat := rfl
@[simp] theorem encodeRun_errinfo (rep fill : Bool) (ch : BitVec 16) (s : State) :
    (encodeRun rep fill ch s).errinfo = s.errinfo := rfl
@[simp] theorem encodeRun_framesz (rep fill : Bool) (ch : BitVec 16) (s : State) :
    (encodeRun rep fill ch s).framesz = s.framesz := rfl
@[simp] theorem encodeRun_bytes (rep fill : Bool) (ch : BitVec 16) (s : State) :
    (encodeRun rep fill ch s).bytes = writeFrames rep fill ch.toNat s s.len.toNat := rfl
@[simp] theorem encodeRun_samples (rep fill : Bool) (ch : BitVec 16) (s : State) :
    (encodeRun rep fill ch s).samples = s.samples := rfl
@[simp] theorem encodeRun_byteTop (rep fill : Bool) (ch : BitVec 16) (s : State) :
    (encodeRun rep fill ch s).byteTop = s.byteTop := rfl
@[simp] theorem encodeRun_sampleTop (rep fill : Bool) (ch : BitVec 16) (s : State) :
    (encodeRun rep fill ch s).sampleTop = s.sampleTop := rfl
@[simp] theorem encodeRun_pending (rep fill : Bool) (ch : BitVec 16) (s : State) :
    (encodeRun rep fill ch s).pending = s.pending := rfl
@[simp] theorem encodeRun_readData (rep fill : Bool) (ch : BitVec 16) (s : State) :
    (encodeRun rep fill ch s).readData = s.readData := rfl

/-! ### The reset event (70 R141) -/

@[simp] theorem resetEvent_status (s : State) : (resetEvent s).status = State.reset.status := rfl
@[simp] theorem resetEvent_bits (s : State) : (resetEvent s).bits = State.reset.bits := rfl
@[simp] theorem resetEvent_order (s : State) : (resetEvent s).order = State.reset.order := rfl
@[simp] theorem resetEvent_signed (s : State) : (resetEvent s).signed = State.reset.signed := rfl
@[simp] theorem resetEvent_channels (s : State) : (resetEvent s).channels = State.reset.channels := rfl
@[simp] theorem resetEvent_rateLo (s : State) : (resetEvent s).rateLo = State.reset.rateLo := rfl
@[simp] theorem resetEvent_rateHi (s : State) : (resetEvent s).rateHi = State.reset.rateHi := rfl
@[simp] theorem resetEvent_src (s : State) : (resetEvent s).src = State.reset.src := rfl
@[simp] theorem resetEvent_dst (s : State) : (resetEvent s).dst = State.reset.dst := rfl
@[simp] theorem resetEvent_len (s : State) : (resetEvent s).len = State.reset.len := rfl
@[simp] theorem resetEvent_count (s : State) : (resetEvent s).count = State.reset.count := rfl
@[simp] theorem resetEvent_clipcnt (s : State) : (resetEvent s).clipcnt = State.reset.clipcnt := rfl
@[simp] theorem resetEvent_clipidx (s : State) : (resetEvent s).clipidx = State.reset.clipidx := rfl
@[simp] theorem resetEvent_errinfo (s : State) : (resetEvent s).errinfo = State.reset.errinfo := rfl
@[simp] theorem resetEvent_framesz (s : State) : (resetEvent s).framesz = State.reset.framesz := rfl
@[simp] theorem resetEvent_bytes (s : State) : (resetEvent s).bytes = s.bytes := rfl
@[simp] theorem resetEvent_samples (s : State) : (resetEvent s).samples = s.samples := rfl
@[simp] theorem resetEvent_byteTop (s : State) : (resetEvent s).byteTop = s.byteTop := rfl
@[simp] theorem resetEvent_sampleTop (s : State) : (resetEvent s).sampleTop = s.sampleTop := rfl
@[simp] theorem resetEvent_pending (s : State) : (resetEvent s).pending = s.pending := rfl
@[simp] theorem resetEvent_readData (s : State) : (resetEvent s).readData = s.readData := rfl

/-! ### Writing a byte cell -/

@[simp] theorem memWrite_status (s : State) (a : Nat) (v : Byte) : (s.memWrite a v).status = s.status := rfl
@[simp] theorem memWrite_bits (s : State) (a : Nat) (v : Byte) : (s.memWrite a v).bits = s.bits := rfl
@[simp] theorem memWrite_order (s : State) (a : Nat) (v : Byte) : (s.memWrite a v).order = s.order := rfl
@[simp] theorem memWrite_signed (s : State) (a : Nat) (v : Byte) : (s.memWrite a v).signed = s.signed := rfl
@[simp] theorem memWrite_channels (s : State) (a : Nat) (v : Byte) : (s.memWrite a v).channels = s.channels := rfl
@[simp] theorem memWrite_rateLo (s : State) (a : Nat) (v : Byte) : (s.memWrite a v).rateLo = s.rateLo := rfl
@[simp] theorem memWrite_rateHi (s : State) (a : Nat) (v : Byte) : (s.memWrite a v).rateHi = s.rateHi := rfl
@[simp] theorem memWrite_src (s : State) (a : Nat) (v : Byte) : (s.memWrite a v).src = s.src := rfl
@[simp] theorem memWrite_dst (s : State) (a : Nat) (v : Byte) : (s.memWrite a v).dst = s.dst := rfl
@[simp] theorem memWrite_len (s : State) (a : Nat) (v : Byte) : (s.memWrite a v).len = s.len := rfl
@[simp] theorem memWrite_count (s : State) (a : Nat) (v : Byte) : (s.memWrite a v).count = s.count := rfl
@[simp] theorem memWrite_clipcnt (s : State) (a : Nat) (v : Byte) : (s.memWrite a v).clipcnt = s.clipcnt := rfl
@[simp] theorem memWrite_clipidx (s : State) (a : Nat) (v : Byte) : (s.memWrite a v).clipidx = s.clipidx := rfl
@[simp] theorem memWrite_errinfo (s : State) (a : Nat) (v : Byte) : (s.memWrite a v).errinfo = s.errinfo := rfl
@[simp] theorem memWrite_framesz (s : State) (a : Nat) (v : Byte) : (s.memWrite a v).framesz = s.framesz := rfl
@[simp] theorem memWrite_bytes (s : State) (a : Nat) (v : Byte) :
    (s.memWrite a v).bytes = Memory.write s.bytes a v := rfl
@[simp] theorem memWrite_samples (s : State) (a : Nat) (v : Byte) : (s.memWrite a v).samples = s.samples := rfl
@[simp] theorem memWrite_byteTop (s : State) (a : Nat) (v : Byte) : (s.memWrite a v).byteTop = s.byteTop := rfl
@[simp] theorem memWrite_sampleTop (s : State) (a : Nat) (v : Byte) : (s.memWrite a v).sampleTop = s.sampleTop := rfl
@[simp] theorem memWrite_pending (s : State) (a : Nat) (v : Byte) : (s.memWrite a v).pending = s.pending := rfl
@[simp] theorem memWrite_readData (s : State) (a : Nat) (v : Byte) : (s.memWrite a v).readData = s.readData := rfl

/-! ### Writing a sample cell -/

@[simp] theorem smpWrite_status (s : State) (i : Nat) (v : Cell) : (s.smpWrite i v).status = s.status := rfl
@[simp] theorem smpWrite_bits (s : State) (i : Nat) (v : Cell) : (s.smpWrite i v).bits = s.bits := rfl
@[simp] theorem smpWrite_order (s : State) (i : Nat) (v : Cell) : (s.smpWrite i v).order = s.order := rfl
@[simp] theorem smpWrite_signed (s : State) (i : Nat) (v : Cell) : (s.smpWrite i v).signed = s.signed := rfl
@[simp] theorem smpWrite_channels (s : State) (i : Nat) (v : Cell) : (s.smpWrite i v).channels = s.channels := rfl
@[simp] theorem smpWrite_rateLo (s : State) (i : Nat) (v : Cell) : (s.smpWrite i v).rateLo = s.rateLo := rfl
@[simp] theorem smpWrite_rateHi (s : State) (i : Nat) (v : Cell) : (s.smpWrite i v).rateHi = s.rateHi := rfl
@[simp] theorem smpWrite_src (s : State) (i : Nat) (v : Cell) : (s.smpWrite i v).src = s.src := rfl
@[simp] theorem smpWrite_dst (s : State) (i : Nat) (v : Cell) : (s.smpWrite i v).dst = s.dst := rfl
@[simp] theorem smpWrite_len (s : State) (i : Nat) (v : Cell) : (s.smpWrite i v).len = s.len := rfl
@[simp] theorem smpWrite_count (s : State) (i : Nat) (v : Cell) : (s.smpWrite i v).count = s.count := rfl
@[simp] theorem smpWrite_clipcnt (s : State) (i : Nat) (v : Cell) : (s.smpWrite i v).clipcnt = s.clipcnt := rfl
@[simp] theorem smpWrite_clipidx (s : State) (i : Nat) (v : Cell) : (s.smpWrite i v).clipidx = s.clipidx := rfl
@[simp] theorem smpWrite_errinfo (s : State) (i : Nat) (v : Cell) : (s.smpWrite i v).errinfo = s.errinfo := rfl
@[simp] theorem smpWrite_framesz (s : State) (i : Nat) (v : Cell) : (s.smpWrite i v).framesz = s.framesz := rfl
@[simp] theorem smpWrite_bytes (s : State) (i : Nat) (v : Cell) : (s.smpWrite i v).bytes = s.bytes := rfl
@[simp] theorem smpWrite_samples (s : State) (i : Nat) (v : Cell) :
    (s.smpWrite i v).samples = Memory.write s.samples i v := rfl
@[simp] theorem smpWrite_byteTop (s : State) (i : Nat) (v : Cell) : (s.smpWrite i v).byteTop = s.byteTop := rfl
@[simp] theorem smpWrite_sampleTop (s : State) (i : Nat) (v : Cell) : (s.smpWrite i v).sampleTop = s.sampleTop := rfl
@[simp] theorem smpWrite_pending (s : State) (i : Nat) (v : Cell) : (s.smpWrite i v).pending = s.pending := rfl
@[simp] theorem smpWrite_readData (s : State) (i : Nat) (v : Cell) : (s.smpWrite i v).readData = s.readData := rfl

/-! ### STATUS (10 R22) -/

@[simp] theorem statusCleared_valid (st : Status) : (statusCleared st).valid = st.valid := rfl
@[simp] theorem statusCleared_err (st : Status) : (statusCleared st).err = false := rfl
@[simp] theorem statusCleared_trunc (st : Status) : (statusCleared st).trunc = false := rfl
@[simp] theorem statusCleared_clip (st : Status) : (statusCleared st).clip = false := rfl
@[simp] theorem statusCleared_errcode (st : Status) : (statusCleared st).errcode = 0 := rfl
@[simp] theorem statusFaulted_valid (code : FaultCode) (st : Status) : (statusFaulted code st).valid = st.valid := rfl
@[simp] theorem statusFaulted_err (code : FaultCode) (st : Status) : (statusFaulted code st).err = true := rfl
@[simp] theorem statusFaulted_trunc (code : FaultCode) (st : Status) : (statusFaulted code st).trunc = st.trunc := rfl
@[simp] theorem statusFaulted_clip (code : FaultCode) (st : Status) : (statusFaulted code st).clip = st.clip := rfl
@[simp] theorem statusFaulted_errcode (code : FaultCode) (st : Status) :
    (statusFaulted code st).errcode = faultNumber code := rfl

/-! ### Putting a transaction in front -/

@[simp] theorem withFetchWord_pending (s : State) (nbits w : Nat) :
    (s.withFetchWord nbits w).pending = .regWrite 0x00 (tableWord nbits w) :: s.pending := rfl

/-- Taking the transaction away again leaves the state it was put into. -/
@[simp] theorem withFetchWord_taken (s : State) (nbits w : Nat) :
    { s.withFetchWord nbits w with pending := s.pending } = s := rfl

end Sys2Proof.Machine
end

