-- ==== Sys2Proof/Laws/Exec.lean ====
section
/-! SUPPORT. Reads and derived quantities under each update, what each command can answer, and where the encoder's bytes
go: the lemmas the proofs cite instead of unfolding the meanings. -/

namespace Sys2Proof.Machine

/-! ### Reads and derived quantities depend only on their own fields -/

theorem memRead_congr {s t : State} (h : t.bytes = s.bytes) (a : Nat) : t.memRead a = s.memRead a := by
  simp [State.memRead, h]

theorem smpRead_congr {s t : State} (h : t.samples = s.samples) (i : Nat) : t.smpRead i = s.smpRead i := by
  simp [State.smpRead, h]

@[simp] theorem prologue_memRead (s : State) : (prologue s).memRead = s.memRead := rfl
@[simp] theorem prologue_smpRead (s : State) : (prologue s).smpRead = s.smpRead := rfl
@[simp] theorem prologue_width (s : State) : (prologue s).width = s.width := rfl
@[simp] theorem prologue_sampleBytes (s : State) : (prologue s).sampleBytes = s.sampleBytes := rfl
@[simp] theorem prologue_chans (s : State) : (prologue s).chans = s.chans := rfl
@[simp] theorem prologue_frameBytes (s : State) : (prologue s).frameBytes = s.frameBytes := rfl
@[simp] theorem prologue_byteSize (s : State) : (prologue s).byteSize = s.byteSize := rfl
@[simp] theorem prologue_sampleSize (s : State) : (prologue s).sampleSize = s.sampleSize := rfl
@[simp] theorem prologue_decodeFrames (s : State) : decodeFrames (prologue s) = decodeFrames s := rfl
@[simp] theorem prologue_decodeRem (s : State) : decodeRem (prologue s) = decodeRem s := rfl
@[simp] theorem prologue_decodedCode (s : State) : decodedCode (prologue s) = decodedCode s := rfl
@[simp] theorem prologue_encodedCode (rep : Bool) (s : State) :
    encodedCode rep (prologue s) = encodedCode rep s := rfl
@[simp] theorem prologue_decodeFault (strict : Bool) (ch : BitVec 16) (s : State) :
    decodeFault strict ch (prologue s) = decodeFault strict ch s := rfl
@[simp] theorem prologue_encodeFault (ch : BitVec 16) (s : State) :
    encodeFault ch (prologue s) = encodeFault ch s := rfl

@[simp] theorem prologue_clippedCount (rep : Bool) (s : State) (n : Nat) :
    clippedCount rep (prologue s) n = clippedCount rep s n := rfl
@[simp] theorem prologue_firstClipped (rep : Bool) (s : State) (n : Nat) :
    firstClipped rep (prologue s) n = firstClipped rep s n := rfl
@[simp] theorem prologue_writeSilence (s : State) (m : Memory 8) (fb ch n : Nat) :
    writeSilence (prologue s) m fb ch n = writeSilence s m fb ch n := by
  induction n with
  | zero => rfl
  | succ n ih => simp only [writeSilence, ih]; rfl
@[simp] theorem prologue_writeFrames (rep fill : Bool) (ch : Nat) (s : State) (n : Nat) :
    writeFrames rep fill ch (prologue s) n = writeFrames rep fill ch s n := by
  induction n with
  | zero => rfl
  | succ n ih =>
    have h (m : Memory 8) : writeFrame rep fill ch (prologue s) m n = writeFrame rep fill ch s m n := by
      cases fill
      · rfl
      · exact prologue_writeSilence ..
    simp only [writeFrames, ih, h]

@[simp] theorem raiseFault_memRead (code : FaultCode) (info : Word) (s : State) :
    (raiseFault code info s).memRead = s.memRead := rfl
@[simp] theorem raiseFault_smpRead (code : FaultCode) (info : Word) (s : State) :
    (raiseFault code info s).smpRead = s.smpRead := rfl

/-- The sample cells after a DECODE that runs: the decoded cells in DST .. DST + N - 1, every other as before. -/
theorem decodeRun_smpRead (rep : Bool) (ch : BitVec 16) (s : State) (c : Nat) :
    (decodeRun rep ch s).smpRead c
      = if s.dst.toNat ≤ c ∧ c < s.dst.toNat + decodeFrames s
        then cellOfCode rep s.width (decodedCode s ch.toNat (c - s.dst.toNat)) else s.smpRead c := by
  simp only [State.smpRead, decodeRun_samples, Memory.get?_fill]
  split_ifs <;> rfl

@[simp] theorem decodeRun_memRead (rep : Bool) (ch : BitVec 16) (s : State) :
    (decodeRun rep ch s).memRead = s.memRead := rfl

@[simp] theorem encodeRun_smpRead (rep fill : Bool) (ch : BitVec 16) (s : State) :
    (encodeRun rep fill ch s).smpRead = s.smpRead := rfl

theorem encodeRun_memRead (rep fill : Bool) (ch : BitVec 16) (s : State) (a : Nat) :
    (encodeRun rep fill ch s).memRead a
      = (Memory.get? (writeFrames rep fill ch.toNat s s.len.toNat) a).getD (Config.powerOnByte a) := rfl

/-! ### What each command answers -/

theorem execNop_eq (s : State) : execNop s = .next (prologue s) := rfl

theorem execValidate_of_legal {s : State} (h : formatInfo s.width s.chans = 0) :
    execValidate s = .next (acceptFormat (prologue s)) :=
  if_neg (show ¬ (formatInfo s.width s.chans != 0) = true by simp [h])

theorem execValidate_of_illegal {s : State} (h : formatInfo s.width s.chans ≠ 0) :
    execValidate s = .next (raiseFault .invalidFormat (formatInfo s.width s.chans) (invalidate (prologue s))) :=
  if_pos (show (formatInfo s.width s.chans != 0) = true from bne_iff_ne.2 h)

theorem execDecode_of_fault {rep strict : Bool} {ch : BitVec 16} {s : State} {code : FaultCode} {info : Word}
    (h : decodeFault strict ch s = some (code, info)) :
    execDecode rep strict ch s = .next (raiseFault code info (prologue s)) := by
  simp [execDecode, h]

theorem execDecode_of_none {rep strict : Bool} {ch : BitVec 16} {s : State} (h : decodeFault strict ch s = none) :
    execDecode rep strict ch s = .next (decodeRun rep ch (prologue s)) := by
  simp [execDecode, h]

theorem execEncode_of_fault {rep fill : Bool} {ch : BitVec 16} {s : State} {code : FaultCode} {info : Word}
    (h : encodeFault ch s = some (code, info)) :
    execEncode rep fill ch s = .next (raiseFault code info (prologue s)) := by
  simp [execEncode, h]

theorem execEncode_of_none {rep fill : Bool} {ch : BitVec 16} {s : State} (h : encodeFault ch s = none) :
    execEncode rep fill ch s = .next (encodeRun rep fill ch (prologue s)) := by
  simp [execEncode, h]

/-- Everything a command can answer: a next state, which is one of these six. -/
theorem exec_cases {i : Instr} {s t : State} (h : exec i s = .next t) :
    (i = .nop ∧ t = prologue s)
    ∨ (i = .validate ∧ formatInfo s.width s.chans = 0 ∧ t = acceptFormat (prologue s))
    ∨ (i = .validate ∧ formatInfo s.width s.chans ≠ 0
        ∧ t = raiseFault .invalidFormat (formatInfo s.width s.chans) (invalidate (prologue s)))
    ∨ (∃ rep strict ch, i = .decode rep strict ch ∧ decodeFault strict ch s = none
        ∧ t = decodeRun rep ch (prologue s))
    ∨ (∃ rep fill ch, i = .encode rep fill ch ∧ encodeFault ch s = none
        ∧ t = encodeRun rep fill ch (prologue s))
    ∨ (∃ code info, t = raiseFault code info (prologue s)
        ∧ ((∃ rep strict ch, i = .decode rep strict ch ∧ decodeFault strict ch s = some (code, info))
          ∨ ∃ rep fill ch, i = .encode rep fill ch ∧ encodeFault ch s = some (code, info))) := by
  cases i with
  | nop => exact .inl ⟨rfl, (Host.Outcome.next.inj h).symm⟩
  | validate =>
    by_cases hf : formatInfo s.width s.chans = 0
    · exact .inr (.inl ⟨rfl, hf, (Host.Outcome.next.inj ((execValidate_of_legal hf).symm.trans h)).symm⟩)
    · exact .inr (.inr (.inl ⟨rfl, hf, (Host.Outcome.next.inj ((execValidate_of_illegal hf).symm.trans h)).symm⟩))
  | decode rep strict ch =>
    rcases hd : decodeFault strict ch s with _ | ⟨code, info⟩
    · exact .inr (.inr (.inr (.inl ⟨rep, strict, ch, rfl, hd,
        (Host.Outcome.next.inj ((execDecode_of_none hd).symm.trans h)).symm⟩)))
    · exact .inr (.inr (.inr (.inr (.inr ⟨code, info,
        (Host.Outcome.next.inj ((execDecode_of_fault hd).symm.trans h)).symm, .inl ⟨rep, strict, ch, rfl, hd⟩⟩))))
  | encode rep fill ch =>
    rcases hd : encodeFault ch s with _ | ⟨code, info⟩
    · exact .inr (.inr (.inr (.inr (.inl ⟨rep, fill, ch, rfl, hd,
        (Host.Outcome.next.inj ((execEncode_of_none hd).symm.trans h)).symm⟩))))
    · exact .inr (.inr (.inr (.inr (.inr ⟨code, info,
        (Host.Outcome.next.inj ((execEncode_of_fault hd).symm.trans h)).symm, .inr ⟨rep, fill, ch, rfl, hd⟩⟩))))

/-- When DECODE's checks all pass (41 R87). -/
theorem decodeFault_eq_none {strict : Bool} {ch : BitVec 16} {s : State} :
    decodeFault strict ch s = none ↔
      s.status.valid = true ∧ ch.toNat < s.chans ∧ ¬ (decodeRem s ≠ 0 ∧ strict = true)
      ∧ s.src.toNat + s.len.toNat ≤ s.byteSize ∧ s.dst.toNat + decodeFrames s ≤ s.sampleSize := by
  unfold decodeFault
  rcases hv : s.status.valid <;> simp only [Bool.not_false, Bool.not_true, if_true, Bool.false_eq_true, if_false]
  · simp
  · by_cases h1 : s.chans ≤ ch.toNat
    · simp [h1]
    · by_cases h2 : decodeRem s ≠ 0 ∧ strict = true
      · simp [h1, h2]
      · by_cases h3 : s.src.toNat + s.len.toNat ≤ s.byteSize <;>
          by_cases h4 : s.dst.toNat + decodeFrames s ≤ s.sampleSize <;>
          (simp [h1, h2, h3, h4, rangeInfo, inRange]; try omega)

/-- When ENCODE's checks all pass (42 R102). -/
theorem encodeFault_eq_none {ch : BitVec 16} {s : State} :
    encodeFault ch s = none ↔
      s.status.valid = true ∧ ch.toNat < s.chans
      ∧ s.src.toNat + s.len.toNat ≤ s.sampleSize ∧ s.dst.toNat + s.len.toNat * s.frameBytes ≤ s.byteSize := by
  unfold encodeFault
  rcases hv : s.status.valid <;> simp only [Bool.not_false, Bool.not_true, if_true, Bool.false_eq_true, if_false]
  · simp
  · by_cases h1 : s.chans ≤ ch.toNat
    · simp [h1]
    · by_cases h3 : s.src.toNat + s.len.toNat ≤ s.sampleSize <;>
        by_cases h4 : s.dst.toNat + s.len.toNat * s.frameBytes ≤ s.byteSize <;>
        (simp [h1, h3, h4, rangeInfo, inRange]; try omega)

/-- VALIDATE finds nothing wrong exactly in a legal format (40 R81, R83). -/
theorem formatInfo_eq_zero {W C : Nat} : formatInfo W C = 0 ↔ legalFormat W C = true := by
  unfold formatInfo legalFormat
  by_cases h : W = 8 ∨ W = 16 ∨ W = 24 ∨ W = 32 <;> by_cases hC : C < 1 <;> simp [h, hC] <;> omega

theorem legalFormat_cases {W C : Nat} (h : legalFormat W C = true) : (W = 8 ∨ W = 16 ∨ W = 24 ∨ W = 32) ∧ 1 ≤ C := by
  simp [legalFormat] at h
  exact ⟨by tauto, h.2⟩

/-! ### Where the encoder's bytes go (42 R113) -/

/-- Two channels' samples of one frame do not overlap. -/
theorem channel_disjoint {B c d j k : Nat} (hj : j < B) (hk : k < B) (h : c * B + j = d * B + k) : c = d := by
  have hB : 0 < B := by omega
  have h1 : (c * B + j) / B = c := by rw [Nat.mul_comm, Nat.mul_add_div hB, Nat.div_eq_of_lt hj, Nat.add_zero]
  have h2 : (d * B + k) / B = d := by rw [Nat.mul_comm, Nat.mul_add_div hB, Nat.div_eq_of_lt hk, Nat.add_zero]
  rw [← h1, h, h2]

/-- Byte `j` of channel `c` lies inside its frame. -/
theorem channel_in_frame {B C c j : Nat} (hc : c < C) (hj : j < B) : c * B + j < C * B := by
  calc c * B + j < c * B + B := by omega
    _ = (c + 1) * B := by ring
    _ ≤ C * B := Nat.mul_le_mul_right _ hc

theorem get?_writeSample (s : State) (m : Memory 8) (a : Nat) (code : Int) (c : Nat) :
    Memory.get? (writeSample s m a code) c
      = if a ≤ c ∧ c < a + s.sampleBytes then some (byteOfCode s.order s.width s.sampleBytes code (c - a))
        else Memory.get? m c := Memory.get?_fill ..

/-- Silence reaches every channel below `n` but `ch`. -/
theorem get?_writeSilence_inside (s : State) (m : Memory 8) (fb ch : Nat) {n c j : Nat} (hc : c < n) (hch : c ≠ ch)
    (hj : j < s.sampleBytes) :
    Memory.get? (writeSilence s m fb ch n) (fb + c * s.sampleBytes + j)
      = some (byteOfCode s.order s.width s.sampleBytes 0 j) := by
  induction n with
  | zero => omega
  | succ n ih =>
    simp only [writeSilence]
    by_cases hcn : c = n
    · subst hcn
      rw [if_neg hch, get?_writeSample, if_pos (by omega)]
      congr 2; omega
    · have ih := ih (by omega)
      split
      · exact ih
      · rw [get?_writeSample, if_neg, ih]
        rintro ⟨h1, h2⟩
        exact hcn (channel_disjoint (k := c * s.sampleBytes + j - n * s.sampleBytes) hj (by omega) (by omega))

/-- Silence reaches nothing else. -/
theorem get?_writeSilence_outside (s : State) (m : Memory 8) (fb ch : Nat) {n a : Nat}
    (h : ∀ c < n, c ≠ ch → ∀ j < s.sampleBytes, a ≠ fb + c * s.sampleBytes + j) :
    Memory.get? (writeSilence s m fb ch n) a = Memory.get? m a := by
  induction n with
  | zero => rfl
  | succ n ih =>
    have ih := ih fun c hc => h c (by omega)
    simp only [writeSilence]
    split
    · exact ih
    · next hn =>
      rw [get?_writeSample, if_neg, ih]
      rintro ⟨h1, h2⟩
      exact h n (by omega) hn (a - (fb + n * s.sampleBytes)) (by omega) (by omega)

/-- Is byte address `a` one the frame at `fb` stores to? Channel `ch` always, the others with FILL = 1 (42 R113). -/
def frameStores (fill : Bool) (ch : Nat) (s : State) (fb a : Nat) : Prop :=
  ∃ c < s.chans, (c = ch ∨ fill = true) ∧ ∃ j < s.sampleBytes, a = fb + c * s.sampleBytes + j

/-- The frame base of frame `i` of the output (42 R113). -/
def frameBase (s : State) (i : Nat) : Nat := s.dst.toNat + i * s.frameBytes

theorem get?_writeFrame_sample (rep fill : Bool) {ch : Nat} (s : State) (m : Memory 8) (i : Nat) {j : Nat}
    (hj : j < s.sampleBytes) :
    Memory.get? (writeFrame rep fill ch s m i) (frameBase s i + ch * s.sampleBytes + j)
      = some (byteOfCode s.order s.width s.sampleBytes (encodedCode rep s i).1 j) := by
  have h : Memory.get? (writeSample s m (frameBase s i + ch * s.sampleBytes) (encodedCode rep s i).1)
      (frameBase s i + ch * s.sampleBytes + j)
      = some (byteOfCode s.order s.width s.sampleBytes (encodedCode rep s i).1 j) := by
    rw [get?_writeSample, if_pos (by omega), Nat.add_sub_cancel_left]
  unfold writeFrame
  simp only
  split
  · refine (get?_writeSilence_outside _ _ _ _ ?_).trans h
    intro c _ hc k hk he
    exact hc (channel_disjoint hk hj (by unfold frameBase at he; omega))
  · exact h

theorem get?_writeFrame_silence (rep : Bool) {ch c : Nat} (s : State) (m : Memory 8) (i : Nat) {j : Nat}
    (hc : c < s.chans) (hch : c ≠ ch) (hj : j < s.sampleBytes) :
    Memory.get? (writeFrame rep true ch s m i) (frameBase s i + c * s.sampleBytes + j)
      = some (byteOfCode s.order s.width s.sampleBytes 0 j) :=
  get?_writeSilence_inside _ _ _ _ hc hch hj

theorem get?_writeFrame_outside (rep fill : Bool) {ch : Nat} (s : State) (m : Memory 8) (i : Nat) {a : Nat}
    (hch : ch < s.chans) (h : ¬ frameStores fill ch s (frameBase s i) a) :
    Memory.get? (writeFrame rep fill ch s m i) a = Memory.get? m a := by
  have h1 : Memory.get? (writeSample s m (frameBase s i + ch * s.sampleBytes) (encodedCode rep s i).1) a
      = Memory.get? m a := by
    rw [get?_writeSample, if_neg]
    rintro ⟨ha, hb⟩
    exact h ⟨ch, hch, .inl rfl, a - (frameBase s i + ch * s.sampleBytes), by omega, by omega⟩
  unfold writeFrame
  simp only
  split
  · next hf =>
    refine (get?_writeSilence_outside _ _ _ _ ?_).trans h1
    intro c hc _ j hj he
    exact h ⟨c, hc, .inr hf, j, hj, he⟩
  · exact h1

/-- The bytes of one frame stay inside it, so frames do not overlap. -/
theorem frameStores_inside {fill : Bool} {ch : Nat} {s : State} {i a : Nat}
    (h : frameStores fill ch s (frameBase s i) a) : frameBase s i ≤ a ∧ a < frameBase s (i + 1) := by
  obtain ⟨c, hc, -, j, hj, rfl⟩ := h
  have := channel_in_frame hc hj
  have e : frameBase s (i + 1) = frameBase s i + s.chans * s.sampleBytes := by
    simp only [frameBase, State.frameBytes]; ring
  omega

theorem frameBase_mono (s : State) {i k : Nat} (h : i ≤ k) : frameBase s i ≤ frameBase s k :=
  Nat.add_le_add_left (Nat.mul_le_mul_right _ h) _

/-- A byte of frame `i` is not stored to by another frame. -/
theorem not_frameStores_other {fill fill' : Bool} {ch ch' : Nat} {s : State} {i k a : Nat} (hik : i ≠ k)
    (h : frameStores fill ch s (frameBase s i) a) : ¬ frameStores fill' ch' s (frameBase s k) a := by
  intro h'
  have h1 := frameStores_inside h
  have h2 := frameStores_inside h'
  rcases Nat.lt_or_gt_of_ne hik with hlt | hlt
  · have := frameBase_mono s (show i + 1 ≤ k from hlt); omega
  · have := frameBase_mono s (show k + 1 ≤ i from hlt); omega

/-- What a byte of frame `i` holds after its frame was written, it holds after all `n` frames. -/
theorem get?_writeFrames_of_frame (rep fill : Bool) {ch : Nat} (s : State) (hch : ch < s.chans) {n i a : Nat}
    (hi : i < n) (h : frameStores fill ch s (frameBase s i) a) {v : Byte}
    (hv : ∀ m, Memory.get? (writeFrame rep fill ch s m i) a = some v) :
    Memory.get? (writeFrames rep fill ch s n) a = some v := by
  induction n with
  | zero => omega
  | succ n ih =>
    simp only [writeFrames]
    by_cases hin : i = n
    · subst hin; exact hv _
    · rw [get?_writeFrame_outside _ _ _ _ _ hch (not_frameStores_other hin h)]
      exact ih (by omega)

/-- Byte `j` of the sample of frame `i` holds byte `j` of its code (42 R110 to R113). -/
theorem get?_writeFrames_sample (rep fill : Bool) {ch : Nat} (s : State) (hch : ch < s.chans) {n i j : Nat}
    (hi : i < n) (hj : j < s.sampleBytes) :
    Memory.get? (writeFrames rep fill ch s n) (frameBase s i + ch * s.sampleBytes + j)
      = some (byteOfCode s.order s.width s.sampleBytes (encodedCode rep s i).1 j) :=
  get?_writeFrames_of_frame _ _ _ hch hi ⟨ch, hch, .inl rfl, j, hj, rfl⟩
    fun m => get?_writeFrame_sample rep fill s m i hj

/-- With FILL = 1, byte `j` of another channel of frame `i` holds byte `j` of silence (42 R113). -/
theorem get?_writeFrames_silence (rep : Bool) {ch c : Nat} (s : State) (hch : ch < s.chans) {n i j : Nat}
    (hi : i < n) (hc : c < s.chans) (hne : c ≠ ch) (hj : j < s.sampleBytes) :
    Memory.get? (writeFrames rep true ch s n) (frameBase s i + c * s.sampleBytes + j)
      = some (byteOfCode s.order s.width s.sampleBytes 0 j) :=
  get?_writeFrames_of_frame _ _ _ hch hi ⟨c, hc, .inr rfl, j, hj, rfl⟩
    fun m => get?_writeFrame_silence rep s m i hc hne hj

/-- Every other byte keeps what it held (42 R113). -/
theorem get?_writeFrames_outside (rep fill : Bool) {ch : Nat} (s : State) (hch : ch < s.chans) {n a : Nat}
    (h : ∀ i < n, ¬ frameStores fill ch s (frameBase s i) a) :
    Memory.get? (writeFrames rep fill ch s n) a = Memory.get? s.bytes a := by
  induction n with
  | zero => rfl
  | succ n ih =>
    simp only [writeFrames]
    rw [get?_writeFrame_outside _ _ _ _ _ hch (h n (by omega))]
    exact ih fun i hi => h i (by omega)

/-! ### The encoder keeps the canonical form -/

theorem wf_writeSilence (s : State) {m : Memory 8} (h : Memory.wf m) (fb ch n : Nat) :
    Memory.wf (writeSilence s m fb ch n) := by
  induction n with
  | zero => exact h
  | succ n ih =>
    simp only [writeSilence]
    split
    · exact ih
    · exact Memory.wf_fill ih ..

theorem wf_writeFrames (rep fill : Bool) (ch : Nat) (s : State) (h : Memory.wf s.bytes) (n : Nat) :
    Memory.wf (writeFrames rep fill ch s n) := by
  induction n with
  | zero => exact h
  | succ n ih =>
    simp only [writeFrames, writeFrame]
    split
    · exact wf_writeSilence _ (Memory.wf_fill ih ..) ..
    · exact Memory.wf_fill ih ..

theorem within_writeSilence (s : State) {m : Memory 8} {size fb ch n : Nat} (h : Memory.within m size)
    (hn : fb + n * s.sampleBytes ≤ size) : Memory.within (writeSilence s m fb ch n) size := by
  induction n with
  | zero => exact h
  | succ n ih =>
    have e : (n + 1) * s.sampleBytes = n * s.sampleBytes + s.sampleBytes := by ring
    have ih := ih (by omega)
    simp only [writeSilence]
    split
    · exact ih
    · exact Memory.within_fill ih (by omega) _

theorem within_writeFrames (rep fill : Bool) {ch : Nat} (s : State) (hch : ch < s.chans)
    (h : Memory.within s.bytes s.byteSize) {n : Nat} (hn : s.dst.toNat + n * s.frameBytes ≤ s.byteSize) :
    Memory.within (writeFrames rep fill ch s n) s.byteSize := by
  induction n with
  | zero => exact h
  | succ n ih =>
    have e : (n + 1) * s.frameBytes = n * s.frameBytes + s.chans * s.sampleBytes := by
      simp only [State.frameBytes]; ring
    have hs : ch * s.sampleBytes + s.sampleBytes ≤ s.chans * s.sampleBytes := by
      calc ch * s.sampleBytes + s.sampleBytes = (ch + 1) * s.sampleBytes := by ring
        _ ≤ _ := Nat.mul_le_mul_right _ hch
    have ih := Memory.within_fill (ih (by omega))
      (base := s.dst.toNat + n * s.frameBytes + ch * s.sampleBytes) (n := s.sampleBytes) (by omega)
      (byteOfCode s.order s.width s.sampleBytes (encodedCode rep s n).1)
    simp only [writeFrames, writeFrame]
    split
    · exact within_writeSilence _ ih (by omega)
    · exact ih

/-! ### The clip diagnostic -/

theorem clippedCount_le (rep : Bool) (s : State) (n : Nat) : clippedCount rep s n ≤ n := by
  simpa [clippedCount] using List.countP_le_length (l := List.range n) (p := fun i => (encodedCode rep s i).2)

/-- CLIPCNT as a cardinality (42 R114). -/
theorem clippedCount_eq_card (rep : Bool) (s : State) (n : Nat) :
    clippedCount rep s n = ((Finset.range n).filter fun i => (encodedCode rep s i).2 = true).card := by
  have h : (fun i => (encodedCode rep s i).2) = fun i => decide ((encodedCode rep s i).2 = true) :=
    funext fun i => Bool.decide_eq_true.symm
  rw [clippedCount, List.countP_eq_length_filter, h]
  rfl

/-- CLIPIDX (42 R114): 0xFFFFFFFF where no sample is clipped, else the least clipped index. -/
theorem firstClipped_spec (rep : Bool) (s : State) {n : Nat} (hn : n < 2 ^ 32) :
    (clippedCount rep s n = 0 ∧ firstClipped rep s n = 0xFFFFFFFF)
    ∨ (0 < clippedCount rep s n ∧ (firstClipped rep s n).toNat < n
      ∧ (encodedCode rep s (firstClipped rep s n).toNat).2 = true
      ∧ ∀ j < (firstClipped rep s n).toNat, (encodedCode rep s j).2 = false) := by
  unfold firstClipped clippedCount
  rcases h : (List.range n).find? (fun i => (encodedCode rep s i).2) with _ | i
  · rw [List.find?_eq_none] at h
    exact .inl ⟨List.countP_eq_zero.2 fun a ha => by simpa using h a ha, rfl⟩
  · rw [List.find?_range_eq_some] at h
    obtain ⟨h1, h2, h3⟩ := h
    have hi : (BitVec.ofNat 32 i).toNat = i := by
      rw [BitVec.toNat_ofNat]
      exact Nat.mod_eq_of_lt (by have := List.mem_range.1 h2; omega)
    simp only [hi]
    exact .inr ⟨List.countP_pos_iff.2 ⟨i, h2, h1⟩, List.mem_range.1 h2, h1, fun j hj => by simpa using h3 j hj⟩

end Sys2Proof.Machine
end

