-- ==== Sys2Proof/Laws/Codec.lean ====
section
/-! SUPPORT. The two codecs of a sample invert each other: storage bytes and code (41 R90 to R93 against 42 R110 to R112),
binary64 cell and code (41 R95 against 42 R104, R108), integer cell and code (41 R96 against 42 R109). -/

namespace Sys2Proof.Machine

/-! ### Storage bytes -/

theorem toNat_ofInt (n : Nat) (x : Int) : ((BitVec.ofInt n x).toNat : Int) = x % 2 ^ n := by
  rw [BitVec.toNat_ofInt]
  exact Int.toNat_of_nonneg (Int.emod_nonneg _ (by positivity))

theorem byteOfCode_toNat_one (be : Bool) (W : Nat) (code : Int) (j : Nat) (h : -128 ≤ code) (h' : code ≤ 127) :
    ((byteOfCode be W 1 code j).toNat : Int) = code + 128 := by
  simp only [byteOfCode, if_true]
  rw [toNat_ofInt]
  split_ifs <;> omega

theorem byteOfCode_toNat (be : Bool) (W B : Nat) (code : Int) (j : Nat) (hB : B ≠ 1) :
    ((byteOfCode be W B code j).toNat : Int) = code % 2 ^ W / 2 ^ (8 * bytePlace be B j) % 256 := by
  simp only [byteOfCode, if_neg hB, BitVec.extractLsb'_toNat, Nat.shiftRight_eq_div_pow]
  push_cast
  rw [toNat_ofInt]

/-- Assembly as a sum over the byte offsets. -/
theorem assemble_eq_sum (be : Bool) (B : Nat) (b : Nat → Byte) :
    assemble be B b = ∑ j ∈ Finset.range B, (b j).toNat * 2 ^ (8 * bytePlace be B j) := rfl

/-- The base-256 digits of a number, least significant first, sum to it modulo 256^n. -/
theorem sum_digits (u n : Nat) : ∑ j ∈ Finset.range n, u / 2 ^ (8 * j) % 256 * 2 ^ (8 * j) = u % 2 ^ (8 * n) := by
  induction n with
  | zero => simp [Nat.mod_one]
  | succ n ih =>
    rw [Finset.sum_range_succ, ih, show 8 * (n + 1) = 8 * n + 8 by ring, pow_add, Nat.mod_mul, Nat.mul_comm (2 ^ _)]
    norm_num

/-- Assembling the bytes of a number below 256^B, taken in the same order, gives the number back. -/
theorem assemble_bytes (be : Bool) {B u : Nat} (hu : u < 2 ^ (8 * B)) (b : Nat → Byte)
    (hb : ∀ j < B, (b j).toNat = u / 2 ^ (8 * bytePlace be B j) % 256) : assemble be B b = u := by
  have hmap : assemble be B b
      = ∑ j ∈ Finset.range B, u / 2 ^ (8 * bytePlace be B j) % 256 * 2 ^ (8 * bytePlace be B j) := by
    rw [assemble_eq_sum]
    exact Finset.sum_congr rfl fun j hj => by rw [hb j (Finset.mem_range.1 hj)]
  rw [hmap]
  refine Eq.trans ?_ ((sum_digits u B).trans (Nat.mod_eq_of_lt hu))
  cases be
  · rfl
  · exact Finset.sum_range_reflect (fun j => u / 2 ^ (8 * j) % 256 * 2 ^ (8 * j)) B

/-- An assembled sample fits its bytes (41 R91, R92). -/
theorem assemble_lt (be : Bool) (B : Nat) (b : Nat → Byte) : assemble be B b < 2 ^ (8 * B) := by
  have le : ∀ (B : Nat) (b : Nat → Byte), ∑ j ∈ Finset.range B, (b j).toNat * 2 ^ (8 * j) < 2 ^ (8 * B) := by
    intro B b
    induction B with
    | zero => simp
    | succ n ih =>
      rw [Finset.sum_range_succ]
      have h1 := (b n).isLt
      have h2 : (b n).toNat * 2 ^ (8*n) ≤ 255 * 2 ^ (8*n) := Nat.mul_le_mul_right _ (by omega)
      have h3 : 2 ^ (8 * (n+1)) = 256 * 2 ^ (8*n) := by rw [Nat.mul_succ, Nat.pow_add]; ring
      omega
  rw [assemble_eq_sum]
  cases be
  · exact le B b
  · have := Finset.sum_range_reflect (fun j => (b (B - 1 - j)).toNat * 2 ^ (8 * j)) B
    have h2 : ∑ j ∈ Finset.range B, (b j).toNat * 2 ^ (8 * bytePlace true B j) = ∑ j ∈ Finset.range B, (b (B-1-j)).toNat * 2 ^ (8 * j) := by
      rw [← this]
      apply Finset.sum_congr rfl
      intro j hj
      have := Finset.mem_range.1 hj
      simp only [bytePlace, if_true]; rw [show B - 1 - (B - 1 - j) = j by omega]
    rw [h2]; exact le B fun j => b (B-1-j)

theorem signExtendFrom_eq {n u : Nat} (hn : 0 < n) (hu : u < 2 ^ n) :
    signExtendFrom n u = if u < 2 ^ (n - 1) then (u : Int) else (u : Int) - 2 ^ n := by
  have hp : 2 ^ n = 2 ^ (n - 1) * 2 := by rw [← pow_succ]; congr 1; omega
  have hpos : 0 < 2 ^ (n - 1) := by positivity
  unfold signExtendFrom
  rw [Nat.testBit_eq_decide_div_mod_eq]
  by_cases h : u < 2 ^ (n - 1)
  · rw [if_pos h, Nat.div_eq_of_lt h, if_neg (by simp)]
  · have : u / 2 ^ (n - 1) = 1 := by
      apply Nat.div_eq_of_lt_le <;> omega
    rw [if_neg h, this, if_pos (by simp)]

/-- Decoding the storage bytes of a code gives the code back (42 R118's core). -/
theorem codeOfBytes_byteOfCode (be : Bool) {W : Nat} (hW : W = 8 ∨ W = 16 ∨ W = 24 ∨ W = 32) {code : Int}
    (h : sMin W ≤ code) (h' : code ≤ sMax W) (b : Nat → Byte)
    (hb : ∀ j < W / 8, b j = byteOfCode be W (W / 8) code j) : codeOfBytes be (W / 8) b = code := by
  have multi : ∀ B, W = 8 * B → (B = 2 ∨ B = 3 ∨ B = 4) → codeOfBytes be (W / 8) b = code := by
    intro B hWB hB
    have hWd : W / 8 = B := by omega
    rw [hWd] at hb ⊢
    have hu : ∃ u : Nat, (u : Int) = code % 2 ^ W ∧ u < 2 ^ W := by
      refine ⟨(code % 2 ^ W).toNat, Int.toNat_of_nonneg (Int.emod_nonneg _ (by positivity)), ?_⟩
      have := Int.emod_lt_of_pos code (show (0 : Int) < 2 ^ W by positivity)
      zify
      rw [Int.toNat_of_nonneg (Int.emod_nonneg _ (by positivity))]
      exact this
    obtain ⟨u, hu, hlt⟩ := hu
    have hbytes : ∀ j < B, (b j).toNat = u / 2 ^ (8 * bytePlace be B j) % 256 := by
      intro j hj
      have := byteOfCode_toNat be W B code j (by omega)
      rw [← hb j hj, ← hu] at this
      exact_mod_cast this
    unfold codeOfBytes
    rw [if_neg (by omega), assemble_bytes be (hWB ▸ hlt) b hbytes, ← hWB,
      signExtendFrom_eq (by omega) hlt]
    simp only [sMin, sMax] at h h'
    rcases hB with rfl | rfl | rfl <;> subst hWB <;> norm_num at * <;> split_ifs <;> omega
  rcases hW with rfl | hW | hW | hW
  · have := byteOfCode_toNat_one be 8 code 0 (by simpa [sMin] using h) (by simp [sMax] at h'; omega)
    rw [← hb 0 (by omega)] at this
    simp only [codeOfBytes, Nat.reduceDiv, if_true]
    omega
  · exact multi 2 (by omega) (by omega)
  · exact multi 3 (by omega) (by omega)
  · exact multi 4 (by omega) (by omega)

/-! ### binary64 cells -/

theorem f64Sign_pack (s : Bool) (e f : Nat) : f64Sign (f64Pack s e f) = s := by
  rw [f64Sign, f64Pack, BitVec.getLsbD_append, if_neg (by omega), BitVec.getLsbD_append, if_neg (by omega)]
  simp

theorem f64Exp_pack (s : Bool) {e : Nat} (f : Nat) (he : e < 2 ^ 11) : f64Exp (f64Pack s e f) = e := by
  have : (f64Pack s e f).extractLsb' 52 11 = BitVec.ofNat 11 e := by
    apply BitVec.eq_of_getLsbD_eq
    intro i hi
    simp only [f64Pack, BitVec.getLsbD_extractLsb', BitVec.getLsbD_append, hi, decide_true, Bool.true_and]
    rw [if_neg (by omega), if_pos (by omega), Nat.add_sub_cancel_left]
  rw [f64Exp, this, BitVec.toNat_ofNat, Nat.mod_eq_of_lt he]

theorem f64Frac_pack (s : Bool) (e : Nat) {f : Nat} (hf : f < 2 ^ 52) : f64Frac (f64Pack s e f) = f := by
  have : (f64Pack s e f).extractLsb' 0 52 = BitVec.ofNat 52 f := by
    apply BitVec.eq_of_getLsbD_eq
    intro i hi
    simp only [f64Pack, BitVec.getLsbD_extractLsb', BitVec.getLsbD_append, hi, decide_true, Bool.true_and]
    rw [if_pos (by omega), Nat.zero_add]
  rw [f64Frac, this, BitVec.toNat_ofNat, Nat.mod_eq_of_lt hf]

/-- The fields of the pattern of a nonzero code (41 R95): with 2^e the leading power of |v|, the exponent is
1023 + e - (W-1) and the significand 2^52 + fraction is |v| * 2^(52-e). -/
theorem normPattern_fields {W : Nat} (hW : W ≤ 53) {v : Int} (hv : v ≠ 0) (ha : v.natAbs ≤ 2 ^ (W - 1)) :
    ∃ e, 2 ^ e ≤ v.natAbs ∧ v.natAbs < 2 ^ (e + 1) ∧ e ≤ W - 1 ∧ f64Sign (normPattern W v) = decide (v < 0)
      ∧ f64Exp (normPattern W v) = 1023 + e - (W - 1)
      ∧ 2 ^ 52 + f64Frac (normPattern W v) = v.natAbs * 2 ^ (52 - e) := by
  have hne : v.natAbs ≠ 0 := Int.natAbs_ne_zero.2 hv
  have h1 := Nat.log2_self_le hne
  have h2 : v.natAbs < 2 ^ (Nat.log2 v.natAbs + 1) := Nat.lt_log2_self
  have he : Nat.log2 v.natAbs ≤ W - 1 := (Nat.pow_le_pow_iff_right (by omega)).1 (h1.trans ha)
  generalize hlog : Nat.log2 v.natAbs = e at *
  have hfr : (v.natAbs - 2 ^ e) * 2 ^ (52 - e) + 2 ^ 52 = v.natAbs * 2 ^ (52 - e) := by
    rw [Nat.sub_mul, ← pow_add, show e + (52 - e) = 52 by omega]
    apply Nat.sub_add_cancel
    calc 2 ^ 52 = 2 ^ e * 2 ^ (52 - e) := by rw [← pow_add]; congr 1; omega
      _ ≤ _ := Nat.mul_le_mul_right _ h1
  have hlt : (v.natAbs - 2 ^ e) * 2 ^ (52 - e) < 2 ^ 52 := by
    have : v.natAbs * 2 ^ (52 - e) < 2 ^ (e + 1) * 2 ^ (52 - e) := Nat.mul_lt_mul_of_pos_right h2 (by positivity)
    rw [← pow_add, show e + 1 + (52 - e) = 53 by omega] at this
    omega
  have hp : normPattern W v
      = f64Pack (decide (v < 0)) (1023 + e - (W - 1)) ((v.natAbs - 2 ^ e) * 2 ^ (52 - e)) := by
    simp [normPattern, hv, hlog]
  refine ⟨e, h1, h2, he, ?_, ?_, ?_⟩
  · rw [hp, f64Sign_pack]
  · rw [hp, f64Exp_pack _ _ (by omega)]
  · rw [hp, f64Frac_pack _ _ hlt, Nat.add_comm, hfr]

theorem natAbs_le_of_range {W : Nat} {v : Int} (h : sMin W ≤ v) (h' : v ≤ sMax W) : v.natAbs ≤ 2 ^ (W - 1) := by
  unfold sMin at h
  unfold sMax at h'
  omega

/-- A decoded normalized sample is IN (42 R104). -/
theorem classify_normPattern {W : Nat} (hW : 0 < W ∧ W ≤ 53) {v : Int} (h : sMin W ≤ v) (h' : v ≤ sMax W) :
    classify (normPattern W v) = .inside := by
  by_cases hv : v = 0
  · subst hv; simp only [normPattern, if_true]; decide
  obtain ⟨e, h1, h2, he, hs, hx, hf⟩ := normPattern_fields hW.2 hv (natAbs_le_of_range h h')
  have hexp : f64Exp (normPattern W v) ≤ 1023 := by omega
  unfold classify
  rw [if_neg (by omega), if_neg, if_neg]
  · rintro ⟨hpos, hE⟩
    have hWe : e = W - 1 := by omega
    rw [hs] at hpos
    unfold sMax at h'
    have : ¬ v < 0 := by simpa using hpos
    rw [hWe] at h1
    omega
  · rintro ⟨hneg, hE | ⟨hE, hF⟩⟩
    · omega
    · have hWe : e = W - 1 := by omega
      have habs := natAbs_le_of_range h h'
      have : v.natAbs = 2 ^ e := by rw [← hWe] at habs; omega
      rw [this, ← pow_add, show e + (52 - e) = 52 by omega] at hf
      omega

/-- Quantizing a decoded normalized sample gives its code back, not clipped (42 R118's proof, first point). -/
theorem quantize_normPattern {W : Nat} (hW : 0 < W ∧ W ≤ 32) {v : Int} (h : sMin W ≤ v) (h' : v ≤ sMax W) :
    quantize false W (normPattern W v) = (v, false) := by
  have hc := classify_normPattern (by omega) h h'
  simp only [quantize, quantizeNorm, hc, Bool.false_eq_true, if_false]
  by_cases hv : v = 0
  · subst hv
    simp [truncScaled, normPattern, f64Exp, f64Frac, f64Sign]
  obtain ⟨e, h1, h2, he, hs, hx, hf⟩ := normPattern_fields (by omega) hv (natAbs_le_of_range h h')
  have hx0 : f64Exp (normPattern W v) ≠ 0 := by omega
  have hk : ((f64Exp (normPattern W v) : Int) - 1075) + ((W : Int) - 1) = -((52 - e : Nat) : Int) := by omega
  simp only [truncScaled, if_neg hx0, hk, neg_neg, Int.toNat_natCast]
  rw [Nat.add_comm, hf]
  have hmag : (if (0 : Int) ≤ -((52 - e : Nat) : Int)
      then v.natAbs * 2 ^ (52 - e) * 2 ^ (-((52 - e : Nat) : Int)).toNat
      else v.natAbs * 2 ^ (52 - e) / 2 ^ (52 - e)) = v.natAbs := by
    rw [if_neg (by omega), Nat.mul_div_cancel _ (by positivity)]
  rw [hmag, hs]
  by_cases hneg : v < 0
  · simp only [hneg, decide_true, if_true]; congr 1; omega
  · simp only [hneg, decide_false, Bool.false_eq_true, if_false]; congr 1; omega

/-! ### Integer cells -/

theorem toInt_ofInt_of_range {W : Nat} (hW : 0 < W ∧ W ≤ 64) {v : Int} (h : sMin W ≤ v) (h' : v ≤ sMax W) :
    (BitVec.ofInt 64 v).toInt = v := by
  have hp : 2 ^ (W - 1) ≤ 2 ^ 63 := Nat.pow_le_pow_right (by omega) (by omega)
  unfold sMin at h
  unfold sMax at h'
  rw [BitVec.toInt_ofInt]
  apply Int.bmod_eq_of_le <;> omega

theorem quantize_integer {W : Nat} (hW : 0 < W ∧ W ≤ 64) {v : Int} (h : sMin W ≤ v) (h' : v ≤ sMax W) :
    quantize true W (BitVec.ofInt 64 v) = (v, false) := by
  simp only [quantize, quantizeInt, if_true, toInt_ofInt_of_range hW h h']
  rw [if_neg (by omega), if_neg (by omega)]

/-- Quantizing the cell of a code gives the code back, in either representation (42 R118). -/
theorem quantize_cellOfCode (rep : Bool) {W : Nat} (hW : 0 < W ∧ W ≤ 32) {v : Int} (h : sMin W ≤ v)
    (h' : v ≤ sMax W) : quantize rep W (cellOfCode rep W v) = (v, false) := by
  cases rep
  · exact quantize_normPattern hW h h'
  · exact quantize_integer (by omega) h h'

end Sys2Proof.Machine
end

