-- ==== Sys2Proof/Laws/Commands.lean ====
section
/-! SUPPORT. What DECODE and ENCODE leave once they are ready to run: the checks pass, and each cell or byte of the
destination holds its sample. -/

namespace Sys2Proof.Machine

/-- A DECODE that is ready passes its checks (41 R87). -/
theorem decodeFault_of_ready {strict : Bool} {ch : BitVec 16} {s : State} (h : decodeReady strict ch s) :
    decodeFault strict ch s = none := by
  rw [decodeFault_eq_none]
  refine ⟨h.1, h.2.1, ?_, h.2.2.2.1, h.2.2.2.2⟩
  rintro ⟨h1, h2⟩
  rcases h.2.2.1 with h3 | h3
  · exact h1 h3
  · rw [h2] at h3
    cases h3

/-- An ENCODE that is ready passes its checks (42 R102). -/
theorem encodeFault_of_ready {ch : BitVec 16} {s : State} (h : encodeReady ch s) : encodeFault ch s = none :=
  encodeFault_eq_none.2 h

/-- Cell `i` of the destination of a DECODE that runs. -/
theorem decodeRun_cell (rep : Bool) (ch : BitVec 16) (s : State) {i : Nat} (hi : i < s.len.toNat / s.frameBytes) :
    (decodeRun rep ch (prologue s)).smpRead (s.dst.toNat + i) = cellOfCode rep s.width (decodedCode s ch.toNat i) := by
  rw [decodeRun_smpRead]
  refine (if_pos ⟨Nat.le_add_right _ _, Nat.add_lt_add_left (k := s.dst.toNat) hi⟩).trans ?_
  rw [prologue_dst, Nat.add_sub_cancel_left, prologue_width, prologue_decodedCode]

/-- Byte `j` of the sample of frame `i` after an ENCODE that runs (42 R113). -/
theorem encodeRun_byte (rep fill : Bool) {ch : BitVec 16} {s : State} (hch : ch.toNat < s.chans) {i j : Nat}
    (hi : i < s.len.toNat) (hj : j < s.sampleBytes) :
    (encodeRun rep fill ch (prologue s)).memRead
        (s.dst.toNat + i * s.frameBytes + ch.toNat * s.sampleBytes + j)
      = byteOfCode s.order s.width s.sampleBytes (encodedCode rep s i).1 j := by
  have h := get?_writeFrames_sample rep fill s hch hi hj
  unfold frameBase at h
  rw [encodeRun_memRead, prologue_writeFrames, prologue_len, h]
  rfl

end Sys2Proof.Machine
end

