-- ==== Sys2Proof/Laws/Encoding.lean ====
section
/-! SUPPORT. The fields of a command word (30 R65): those of an encoded command, and that they determine the word. -/

namespace Sys2Proof

/-- The fields of a DECODE's word (30 R65, R76). -/
theorem fields_decode (rep strict : Bool) (ch : BitVec 16) :
    cmdOp (encode (.decode rep strict ch)) = 2 ∧ cmdRep (encode (.decode rep strict ch)) = rep ∧ cmdStrict (encode (.decode rep strict ch)) = strict
    ∧ cmdFill (encode (.decode rep strict ch)) = false ∧ cmdRsv (encode (.decode rep strict ch)) = 0 ∧ cmdCh (encode (.decode rep strict ch)) = ch := by
  refine ⟨?_, ?_, ?_, ?_, ?_, ?_⟩
  · apply BitVec.eq_of_getLsbD_eq; intro i hi; interval_cases i <;> cases rep <;> cases strict <;> simp [cmdOp, encode, flagAt]
  · cases rep <;> cases strict <;> simp [cmdRep, encode, flagAt]
  · cases rep <;> cases strict <;> simp [cmdStrict, encode, flagAt]
  · cases rep <;> cases strict <;> simp [cmdFill, encode, flagAt]
  · apply BitVec.eq_of_getLsbD_eq; intro i hi; interval_cases i <;> cases rep <;> cases strict <;> simp [cmdRsv, encode, flagAt]
  · apply BitVec.eq_of_getLsbD_eq; intro i hi; interval_cases i <;> cases rep <;> cases strict <;> simp [cmdCh, encode, flagAt]
/-- The fields of an ENCODE's word (30 R65, R76). -/
theorem fields_encode (rep fill : Bool) (ch : BitVec 16) :
    cmdOp (encode (.encode rep fill ch)) = 3 ∧ cmdRep (encode (.encode rep fill ch)) = rep ∧ cmdStrict (encode (.encode rep fill ch)) = false
    ∧ cmdFill (encode (.encode rep fill ch)) = fill ∧ cmdRsv (encode (.encode rep fill ch)) = 0 ∧ cmdCh (encode (.encode rep fill ch)) = ch := by
  refine ⟨?_, ?_, ?_, ?_, ?_, ?_⟩
  · apply BitVec.eq_of_getLsbD_eq; intro i hi; interval_cases i <;> cases rep <;> cases fill <;> simp [cmdOp, encode, flagAt]
  · cases rep <;> cases fill <;> simp [cmdRep, encode, flagAt]
  · cases rep <;> cases fill <;> simp [cmdStrict, encode, flagAt]
  · cases rep <;> cases fill <;> simp [cmdFill, encode, flagAt]
  · apply BitVec.eq_of_getLsbD_eq; intro i hi; interval_cases i <;> cases rep <;> cases fill <;> simp [cmdRsv, encode, flagAt]
  · apply BitVec.eq_of_getLsbD_eq; intro i hi; interval_cases i <;> cases rep <;> cases fill <;> simp [cmdCh, encode, flagAt]

/-- A word is its fields (30 R65). -/
theorem word_eq {v w : Word} (h1 : cmdOp v = cmdOp w) (h2 : cmdRep v = cmdRep w) (h3 : cmdStrict v = cmdStrict w) (h4 : cmdFill v = cmdFill w)
   (h5 : cmdRsv v = cmdRsv w) (h6 : cmdCh v = cmdCh w) : v = w := by
  apply BitVec.eq_of_getLsbD_eq
  intro i hi
  rcases (by omega : i < 4 ∨ i = 4 ∨ i = 5 ∨ i = 6 ∨ (7 ≤ i ∧ i < 16) ∨ 16 ≤ i) with h | rfl | rfl | rfl | h | h
  · have := congrArg (BitVec.getLsbD · i) h1; simpa [cmdOp, h] using this
  · exact h2
  · exact h3
  · exact h4
  · have := congrArg (BitVec.getLsbD · (i-7)) h5; simpa [cmdRsv, show i - 7 < 9 by omega, show 7 + (i-7) = i by omega] using this
  · have := congrArg (BitVec.getLsbD · (i-16)) h6; simpa [cmdCh, show i - 16 < 16 by omega, show 16 + (i-16) = i by omega] using this

/-- When the decoder finds nothing wrong (30 R72). -/
theorem cmdInfo_eq_zero {w : Word} : cmdInfo w = 0 ↔ (cmdOp w).toNat < 4 ∧ cmdRsv w = 0 ∧ cmdNotAdmitted w = false := by
  unfold cmdInfo
  by_cases h1 : (cmdOp w).toNat ≥ 4 <;> by_cases h2 : cmdRsv w = 0 <;> rcases h3 : cmdNotAdmitted w <;> simp [h1, h2] <;> omega

/-- A word avoids a mask when it has none of the mask's bits. -/
theorem and_mask_eq_zero {w m : Word} : w &&& m = 0 ↔ ∀ i < 32, m.getLsbD i = true → w.getLsbD i = false := by
  constructor
  · intro h i _ hm
    have := congrArg (BitVec.getLsbD · i) h
    simpa [hm] using this
  · intro h
    apply BitVec.eq_of_getLsbD_eq
    intro i hi
    rcases hm : m.getLsbD i
    · simp [hm]
    · simp [hm, h i hi hm]

/-- OP as the spec's check reads it (30 R71). -/
theorem op_masked (w : Word) : (w &&& 0xF).toNat = (cmdOp w).toNat := by
  simp only [cmdOp, BitVec.extractLsb'_toNat, BitVec.toNat_and, Nat.shiftRight_zero]
  exact Nat.and_two_pow_sub_one_eq_mod _ 4

/-- RSV clear by mask and by field (30 R69). -/
theorem reservedClear_iff {w : Word} : reservedClear w = true ↔ cmdRsv w = 0 := by
  simp only [reservedClear, beq_iff_eq, and_mask_eq_zero]
  constructor
  · intro h
    apply BitVec.eq_of_getLsbD_eq
    intro i hi
    simp only [cmdRsv, BitVec.getLsbD_extractLsb', hi, decide_true, Bool.true_and]
    rw [h (7 + i) (by omega) (by interval_cases i <;> rfl)]; simp
  · intro h i hi hm
    have h7 : 7 ≤ i ∧ i < 16 := by
      by_contra hc
      interval_cases i <;> first | omega | cases hm
    have := congrArg (BitVec.getLsbD · (i - 7)) h
    simpa [cmdRsv, show i - 7 < 9 by omega, show 7 + (i - 7) = i by omega] using this

theorem cmdCh_eq_zero {w : Word} : cmdCh w = 0 ↔ ∀ i < 32, 16 ≤ i → w.getLsbD i = false := by
  constructor
  · intro h i hi h16
    have := congrArg (BitVec.getLsbD · (i - 16)) h
    simpa [cmdCh, show i - 16 < 16 by omega, show 16 + (i - 16) = i by omega] using this
  · intro h
    apply BitVec.eq_of_getLsbD_eq
    intro i hi
    simp only [cmdCh, BitVec.getLsbD_extractLsb', hi, decide_true, Bool.true_and]
    rw [h (16 + i) (by omega) (by omega)]; simp

/-- The two spellings of 30 R71's admitted fields agree. -/
theorem fieldsAdmitted_eq (w : Word) : fieldsAdmitted w = !cmdNotAdmitted w := by
  have h1 : w &&& 0xFFFF0070 = 0 ↔ cmdRep w = false ∧ cmdStrict w = false ∧ cmdFill w = false ∧ cmdCh w = 0 := by
    rw [and_mask_eq_zero, cmdCh_eq_zero]
    constructor
    · intro h
      exact ⟨h 4 (by omega) rfl, h 5 (by omega) rfl, h 6 (by omega) rfl, fun i hi h16 => h i hi (by interval_cases i <;> rfl)⟩
    · rintro ⟨ha, hb, hc, hd⟩ i hi hm
      by_cases h16 : 16 ≤ i
      · exact hd i hi h16
      · interval_cases i <;> first | exact ha | exact hb | exact hc | cases hm
  have h2 : w &&& 0x40 = 0 ↔ cmdFill w = false := by
    rw [and_mask_eq_zero]
    constructor
    · intro h; exact h 6 (by omega) rfl
    · intro ha i hi hm; interval_cases i <;> first | exact ha | cases hm
  have h3 : w &&& 0x20 = 0 ↔ cmdStrict w = false := by
    rw [and_mask_eq_zero]
    constructor
    · intro h; exact h 5 (by omega) rfl
    · intro ha i hi hm; interval_cases i <;> first | exact ha | cases hm
  rw [Bool.eq_iff_iff]
  unfold fieldsAdmitted cmdNotAdmitted
  simp only [op_masked]
  have := (cmdOp w).isLt
  generalize (cmdOp w).toNat = n at *
  interval_cases n <;> simp [and_assoc] <;> first | exact h1 | exact h2 | exact h3

end Sys2Proof
end

