-- ==== Sys2Proof/Laws/PerInstr.lean ====
section
/-! SUPPORT. Per-instruction statements over the syntax of commands. -/

namespace Sys2Proof.Laws

/-- The word of a command is spelled by its own row of the match and mask table, and its low four bits are the row's
operation (30 R71, R76). -/
def EncodedRow.Statement (i : Instr) : Prop :=
  i.row.spells (encode i) = true ∧ cmdOp (encode i) = i.row.matchBits.extractLsb' 0 4

theorem EncodedRow.nop : EncodedRow.Statement .nop := by unfold EncodedRow.Statement; decide

theorem EncodedRow.validate : EncodedRow.Statement .validate := by unfold EncodedRow.Statement; decide

/-- The bits of a word that carries a channel in its high half: those of the low half are the constant's. -/
theorem channel_and_low (ch : BitVec 16) (c m : Word) (hm : m &&& 0xFFFF0000#32 = 0#32) :
    (ch.setWidth 32 <<< 16 ||| c) &&& m = c &&& m := by
  have h : (ch.setWidth 32 <<< 16 : Word) &&& m = 0#32 := by
    apply BitVec.eq_of_getLsbD_eq
    intro i hi
    have hmi := congrArg (BitVec.getLsbD · i) hm
    simp only [BitVec.getLsbD_and, BitVec.getLsbD_zero] at hmi
    simp only [BitVec.getLsbD_and, BitVec.getLsbD_shiftLeft, BitVec.getLsbD_zero]
    by_cases h16 : i < 16
    · simp [h16]
    · have : (0xFFFF0000#32).getLsbD i = true := by
        interval_cases i <;> first | omega | rfl
      rw [this, Bool.and_true] at hmi
      rw [hmi, Bool.and_false]
  rw [BitVec.and_or_distrib_right, h, BitVec.zero_or]

/-- The operation field does not see the channel. -/
theorem cmdOp_channel (ch : BitVec 16) (c : Word) : cmdOp (ch.setWidth 32 <<< 16 ||| c) = cmdOp c := by
  apply BitVec.eq_of_getLsbD_eq
  intro i hi
  simp [cmdOp, show i < 16 by omega]

theorem EncodedRow.decode (rep strict : Bool) (ch : BitVec 16) :
    EncodedRow.Statement (.decode rep strict ch) := by
  unfold EncodedRow.Statement
  simp only [encode, Instr.row, OpcodeRow.spells, BitVec.or_assoc]
  rw [channel_and_low _ _ _ (by decide), cmdOp_channel]
  revert rep strict; decide

theorem EncodedRow.encode (rep fill : Bool) (ch : BitVec 16) :
    EncodedRow.Statement (.encode rep fill ch) := by
  unfold EncodedRow.Statement
  simp only [Sys2Proof.encode, Instr.row, OpcodeRow.spells, BitVec.or_assoc]
  rw [channel_and_low _ _ _ (by decide), cmdOp_channel]
  revert rep fill; decide

end Sys2Proof.Laws
end

