-- ==== Sys2Proof/Laws/Real.lean ====
section
/-! SUPPORT. binary64 patterns as exact rationals (00 R11): the size of a value by its fields, and the encoder's integer
truncation as truncation of the exact product (42 R108). -/

namespace Sys2Proof.Machine

/-- The integer significand of a finite pattern (00 R11). -/
def f64Sig (p : Cell) : Nat := if f64Exp p = 0 then f64Frac p else f64Frac p + 2 ^ 52
/-- The exponent of its unit in the last place (00 R11). -/
def f64Pow (p : Cell) : Int := if f64Exp p = 0 then -1074 else (f64Exp p : Int) - 1075

theorem f64Frac_lt (p : Cell) : f64Frac p < 2 ^ 52 := (p.extractLsb' 0 52).isLt
theorem f64Exp_lt (p : Cell) : f64Exp p < 2 ^ 11 := (p.extractLsb' 52 11).isLt

/-- The value of a pattern as sign, significand and exponent. -/
theorem realOf_eq (p : Cell) :
    realOf p = (if f64Sign p then -1 else 1) * ((f64Sig p : ℚ) * 2 ^ f64Pow p) := by
  unfold realOf f64Sig f64Pow
  split <;> split <;> push_cast <;> ring

theorem f64Sig_nonneg (p : Cell) : (0 : ℚ) ≤ (f64Sig p : ℚ) * 2 ^ f64Pow p := by positivity

theorem mag_lt_one {p : Cell} (h : f64Exp p < 1023) : (f64Sig p : ℚ) * 2 ^ f64Pow p < 1 := by
  have hf := f64Frac_lt p
  have h1 : (f64Sig p : ℚ) < 2 ^ (53 : ℤ) := by
    have : f64Sig p < 2 ^ 53 := by unfold f64Sig; split <;> omega
    exact_mod_cast this
  have h2 : (2:ℚ) ^ f64Pow p ≤ 2 ^ (-53 : ℤ) := by
    apply zpow_le_zpow_right₀ (by norm_num); unfold f64Pow; split <;> omega
  calc (f64Sig p : ℚ) * 2 ^ f64Pow p < 2 ^ (53 : ℤ) * 2 ^ f64Pow p := by
        exact mul_lt_mul_of_pos_right h1 (by positivity)
    _ ≤ 2 ^ (53 : ℤ) * 2 ^ (-53 : ℤ) := by gcongr
    _ = 1 := by rw [← zpow_add₀ (by norm_num)]; norm_num

theorem mag_one_lt {p : Cell} (h : 1023 < f64Exp p ∨ (f64Exp p = 1023 ∧ f64Frac p ≠ 0)) : 1 < (f64Sig p : ℚ) * 2 ^ f64Pow p := by
  have h0 : f64Exp p ≠ 0 := by omega
  rcases h with h | ⟨h, hf⟩
  · have h1 : (2:ℚ) ^ (52 : ℤ) ≤ f64Sig p := by
      have : 2 ^ 52 ≤ f64Sig p := by unfold f64Sig; rw [if_neg h0]; omega
      exact_mod_cast this
    have h2 : (2:ℚ) ^ (-51 : ℤ) ≤ 2 ^ f64Pow p := by
      apply zpow_le_zpow_right₀ (by norm_num); unfold f64Pow; rw [if_neg h0]; omega
    calc (1:ℚ) < 2 ^ (52 : ℤ) * 2 ^ (-51 : ℤ) := by norm_num
      _ ≤ _ := by gcongr
  · have h1 : (2:ℚ) ^ (52 : ℤ) < f64Sig p := by
      have : 2 ^ 52 < f64Sig p := by unfold f64Sig; rw [if_neg h0]; omega
      exact_mod_cast this
    have h2 : f64Pow p = -52 := by unfold f64Pow; rw [if_neg h0, h]; norm_num
    rw [h2]
    calc (1:ℚ) = 2 ^ (52 : ℤ) * 2 ^ (-52 : ℤ) := by norm_num
      _ < _ := mul_lt_mul_of_pos_right h1 (by positivity)

theorem mag_eq_one {p : Cell} (h : f64Exp p = 1023) (hf : f64Frac p = 0) : (f64Sig p : ℚ) * 2 ^ f64Pow p = 1 := by
  have h0 : f64Exp p ≠ 0 := by omega
  unfold f64Sig f64Pow; rw [if_neg h0, if_neg h0, h, hf]; norm_num

theorem truncQ_neg (x : ℚ) : truncQ (-x) = - truncQ x := by
  unfold truncQ
  rcases lt_trichotomy x 0 with h | rfl | h
  · rw [if_pos (by linarith), if_neg (by linarith)]; simp
  · simp
  · rw [if_neg (by linarith), if_pos h.le]; simp

/-- Scaling by a power of two on integers is the floor of the exact product. -/
theorem scaled_floor (m : Nat) (k : Int) :
    ((if 0 ≤ k then m * 2 ^ k.toNat else m / 2 ^ (-k).toNat : Nat) : Int) = ⌊(m : ℚ) * 2 ^ k⌋ := by
  split
  · next h =>
    obtain ⟨n, rfl⟩ := Int.eq_ofNat_of_zero_le h
    have : ((m : ℚ) * 2 ^ ((n : Nat) : Int)) = (((m * 2 ^ n : Nat) : Int) : ℚ) := by push_cast; rw [zpow_natCast]
    rw [this, Int.floor_intCast]; rfl
  · next h =>
    obtain ⟨n, hn⟩ : ∃ n : Nat, k = -(n:Int) := ⟨(-k).toNat, by omega⟩
    subst hn
    rw [neg_neg, Int.toNat_natCast, zpow_neg, zpow_natCast, ← div_eq_mul_inv]
    have := Rat.floor_intCast_div_natCast (m : Int) (2 ^ n)
    push_cast at this ⊢
    rw [this]

theorem truncScaled_eq (W : Nat) (p : Cell) (hW : 0 < W) : truncScaled W p = truncQ (realOf p * 2 ^ (W-1)) := by
  have key : ((if 0 ≤ f64Pow p + ((W : Int) - 1) then f64Sig p * 2 ^ (f64Pow p + ((W : Int) - 1)).toNat else f64Sig p / 2 ^ (-(f64Pow p + ((W : Int) - 1))).toNat : Nat) : Int)
     = truncQ ((f64Sig p : ℚ) * 2 ^ f64Pow p * 2 ^ (W-1)) := by
    have h2 : (2:ℚ) ^ (W-1) = 2 ^ ((W:Int) - 1) := by rw [← zpow_natCast]; congr 1; omega
    rw [scaled_floor, truncQ, if_pos (mul_nonneg (f64Sig_nonneg p) (by positivity)), h2, mul_assoc, ← zpow_add₀ (by norm_num : (2:ℚ) ≠ 0)]
  rw [realOf_eq]
  have : truncScaled W p = if f64Sign p then -((if 0 ≤ f64Pow p + ((W : Int) - 1) then f64Sig p * 2 ^ (f64Pow p + ((W : Int) - 1)).toNat else f64Sig p / 2 ^ (-(f64Pow p + ((W : Int) - 1))).toNat : Nat) : Int) else ((if 0 ≤ f64Pow p + ((W : Int) - 1) then f64Sig p * 2 ^ (f64Pow p + ((W : Int) - 1)).toNat else f64Sig p / 2 ^ (-(f64Pow p + ((W : Int) - 1))).toNat : Nat) : Int) := rfl
  rw [this, key]
  split
  · rw [neg_one_mul, neg_mul, truncQ_neg]
  · rw [one_mul]

end Sys2Proof.Machine
end

