-- ==== Sys2Proof/Laws/Step.lean ====
section
/-! SUPPORT. What one step does by the host's next transaction, and when the window has no register. -/

namespace Sys2Proof.Machine

theorem step_nil {s : State} (h : s.pending = []) : step s = .next s := by
  unfold step nextTransaction
  rw [h]

/-- A step performs the next pending transaction on the state with it taken away. -/
theorem step_cons {s : State} {x : HostTxn} {rest : List HostTxn} (h : s.pending = x :: rest) :
    step s = perform x { s with pending := rest } := by
  unfold step nextTransaction
  rw [h]

/-- A write to CMD of a word that decodes runs its command (30 R73). -/
theorem perform_command {w : Word} {i : Instr} (h : decodeCmd w = .op i) (s : State) :
    perform (.regWrite 0x00 w) s = exec i s := by
  simp [perform, hostWrite, runCommand, h]

/-- The fields of the word FMT0 reads as (10 R28). -/
theorem fmt0Word_fields (s : State) :
    (fmt0Word s).extractLsb' 0 8 = s.bits ∧ (fmt0Word s).getLsbD 8 = s.order ∧ (fmt0Word s).getLsbD 9 = s.signed
      ∧ (fmt0Word s).extractLsb' 10 22 = 0 := by
  refine ⟨?_, ?_, ?_, ?_⟩
  · apply BitVec.eq_of_getLsbD_eq
    intro i hi
    cases ho : s.order <;> cases hs : s.signed <;> interval_cases i <;> simp [fmt0Word, bitAt, ho, hs]
  · cases ho : s.order <;> cases hs : s.signed <;> simp [fmt0Word, bitAt, ho, hs]
  · cases ho : s.order <;> cases hs : s.signed <;> simp [fmt0Word, bitAt, ho, hs]
  · apply BitVec.eq_of_getLsbD_eq
    intro i hi
    cases ho : s.order <;> cases hs : s.signed <;> interval_cases i <;> simp [fmt0Word, bitAt, ho, hs]

theorem windowRead_none {off : Nat} (h : ¬ (off % 4 = 0 ∧ off ≤ 0x3C)) (s : State) : windowRead off s = none := by
  unfold windowRead
  split <;> first | rfl | (exfalso; revert h; decide)

theorem windowWrite_none {off : Nat} (h : ¬ (off % 4 = 0 ∧ off ≤ 0x3C)) (v : Word) (s : State) :
    windowWrite off v s = none := by
  unfold windowWrite
  split <;> first | rfl | (exfalso; revert h; decide)

end Sys2Proof.Machine
end

