-- ==== Sys2Proof/Tests/Slice0.lean ====
section
/-! SUPPORT. Small tests of the model (expected results from 30 R76, 95_test_vectors.md and hand calculation from the
rules) and one witness for each statement that has hypotheses. -/

namespace Sys2Proof.Tests

open Sys2Proof.Machine

/-! ### States for the tests -/

/-- A validated descriptor of `W` bits and `C` channels, buffers at byte 0x10 and cell 0x20. -/
def ready (W C : Nat) (be : Bool) : State :=
  { State.reset with
    status := { State.reset.status with valid := true }
    bits := BitVec.ofNat 8 W, channels := BitVec.ofNat 16 C, order := be
    framesz := BitVec.ofNat 18 (C * (W / 8)) }

/-- `ready` with the bytes `bs` at 0x10 as the input of a DECODE to cell 0x20. -/
def withBytes (W C : Nat) (be : Bool) (bs : List Nat) : State :=
  { ready W C be with
    src := 0x10, dst := 0x20, len := BitVec.ofNat 32 bs.length
    bytes := bs.zipIdx.map fun (b, k) => (0x10 + k, BitVec.ofNat 8 b) }

/-- `ready` with the cells `ps` at 0x20 as the input of an ENCODE to byte 0x10. -/
def withCells (W C : Nat) (be : Bool) (ps : List Nat) : State :=
  { ready W C be with
    src := 0x20, dst := 0x10, len := BitVec.ofNat 32 ps.length
    samples := ps.zipIdx.map fun (p, k) => (0x20 + k, BitVec.ofNat 64 p) }

/-- Spaces of eight cells each. -/
def small : State := { State.reset with byteTop := 7, sampleTop := 7 }

/-- What holds of the next state, or false where there is none. -/
def nextHas (o : Host.Outcome State Fault Refusal) (p : State → Bool) : Bool :=
  match o with
  | .next t => p t
  | _ => false

/-! ### Command words -/

theorem test_word_reserved_op : opDefined 0x00000004 = false ∧ wellFormedWord 0x00000004 = false := by decide
theorem test_word_reserved_bits : reservedClear 0x00008000 = false ∧ wellFormedWord 0x00008000 = false := by decide
theorem test_word_field_not_admitted :
    fieldsAdmitted 0x00000042 = false ∧ fieldsAdmitted 0x00000023 = false ∧ fieldsAdmitted 0x00010001 = false
      ∧ wellFormedWord 0x00000042 = false := by decide
theorem test_word_table : legalWord 0xFFFF0073 = false ∧ legalWord 0xFFFF0053 = true := by decide

theorem test_txn_misplaced_read : HostTxn.admitted State.reset (.regRead 0x02) = false := by decide
theorem test_txn_misplaced_write : HostTxn.admitted State.reset (.regWrite 0x40 0) = false := by decide
theorem test_txn_byte_outside :
    HostTxn.admitted small (.byteRead 8) = false ∧ HostTxn.admitted small (.byteWrite 8 0) = false := by decide
theorem test_txn_sample_outside :
    HostTxn.admitted small (.sampleRead 8) = false ∧ HostTxn.admitted small (.sampleWrite 8 0) = false := by decide

/-- R65's fields written out: CH 0, RSV 0, FILL 0, STRICT 0, REP 0, OP 0000. -/
theorem test_decode_nop : decodeCmd 0b0000000000000000_000000000_0_0_0_0000 = .op .nop := by decide
theorem test_decode_validate : decodeCmd 0b0000000000000000_000000000_0_0_0_0001 = .op .validate := by decide
/-- CH 0xA5F0, STRICT 1, REP 0, OP 0010. -/
theorem test_decode_decode :
    decodeCmd 0b1010010111110000_000000000_0_1_0_0010 = .op (.decode false true 0xA5F0) := by decide
/-- CH 0x0FA5, FILL 1, REP 1, OP 0011. -/
theorem test_decode_encode :
    decodeCmd 0b0000111110100101_000000000_1_0_1_0011 = .op (.encode true true 0x0FA5) := by decide
theorem test_decode_illegal : decodeCmd 0x0000008F = .illegal 3 ∧ decodeCmd 0x00000063 = .illegal 4 := by decide
theorem test_decodeTableWord :
    decodeTableWord 32 0xFFFF0022 = some (.decode false true 0xFFFF) ∧ decodeTableWord 32 0x00000010 = none := by decide

/-- 30 R76: `DECODE.I.S 3` and `ENCODE.Z 0`. -/
theorem test_assemble :
    assembleCmd ⟨.decode, some .dotI, true, some 3⟩ = some 0x00030032
      ∧ assembleCmd ⟨.encode, none, true, some 0⟩ = some 0x00000043 := by decide

/-- 30 R78: `SETFMT 16, 2, BE` is the first two lines of 95 P4; `OPEN 4, ...` has no default for `signed`. -/
theorem test_setFmt :
    expandLine (.setFmt 16 2 true none) = some [.regWrite 0x08 0x310, .regWrite 0x0C 2]
      ∧ expandLine (.openFmt 4 1 false) = none := by decide

/-! ### The first command after reset -/

theorem test_reset_runs_nop : step (State.reset.withFetchWord 32 0x00000000) = exec .nop State.reset := rfl
theorem test_reset_runs_validate : step (State.reset.withFetchWord 32 0x00000001) = exec .validate State.reset := rfl
theorem test_reset_runs_decode :
    step (State.reset.withFetchWord 32 0x00000002) = exec (.decode false false 0) State.reset := rfl
theorem test_reset_runs_encode :
    step (State.reset.withFetchWord 32 0x00000003) = exec (.encode false false 0) State.reset := rfl

/-! ### Instructions -/

/-- 40 R79's example: STATUS 0x00000403 becomes 0x00000001. -/
theorem test_nop_clears :
    statusWord { ready 16 2 false with status := ⟨true, true, false, false, 4⟩ }.status = 0x403
      ∧ nextHas (exec .nop { ready 16 2 false with status := ⟨true, true, false, false, 4⟩ })
        (fun t => statusWord t.status == 1) = true := by decide

/-- 95 2.1: BITS = 32, CHANNELS = 0xFFFF, the largest frame. -/
theorem test_validate_largest :
    nextHas (exec .validate { State.reset with bits := 32, channels := 0xFFFF })
      (fun t => statusWord t.status == 1 && t.framesz == 0x3FFFC) = true := by decide

/-- 95 2.1: BITS = 12, CHANNELS = 0: both causes, on a descriptor that was validated. -/
theorem test_validate_both_causes :
    nextHas (exec .validate { ready 16 2 false with bits := 12, channels := 0 })
      (fun t => statusWord t.status == 0x202 && t.errinfo == 3 && t.framesz == 0) = true := by decide

/-- 95 2.3: `DECODE.I 1` of the 24-bit big-endian stereo frame [80 00 00 7F FF FF]. -/
theorem test_decode_last_channel :
    nextHas (exec (.decode true false 1) (withBytes 24 2 true [0x80, 0, 0, 0x7F, 0xFF, 0xFF]))
      (fun t => t.samples == [(0x20, 0x7FFFFF)] && t.count == 1) = true := by decide

/-- 95 2.3: `DECODE 0` of the 16-bit mono input [34 12 56]: one sample and TRUNC. -/
theorem test_decode_partial_frame :
    nextHas (exec (.decode false false 0) (withBytes 16 1 false [0x34, 0x12, 0x56]))
      (fun t => t.samples == [(0x20, 0x3FC2340000000000)] && statusWord t.status == 5) = true := by decide

/-- 95 2.6: `ENCODE.Z 1` of 0.5 and -0.5 at 8 bits, three channels. -/
theorem test_encode_fill :
    nextHas (exec (.encode false true 1) (withCells 8 3 false [0x3FE0000000000000, 0xBFE0000000000000]))
      (fun t => t.bytes.map (·.2) == [0x80, 0xC0, 0x80, 0x80, 0x40, 0x80]) = true := by decide

/-- 95 2.4: 0.99 and -1.5 at 24 bits little-endian: [51 B8 7E], and SMIN clipped. -/
theorem test_encode_clip :
    nextHas (exec (.encode false false 0) (withCells 24 1 false [0x3FEFAE147AE147AE, 0xBFF8000000000000]))
      (fun t => t.bytes.map (·.2) == [0x51, 0xB8, 0x7E, 0x00, 0x00, 0x80]
        && t.clipcnt == 1 && t.clipidx == 1 && statusWord t.status == 9) = true := by decide

/-! ### Witnesses: hypotheses of the statements that some state meets -/

theorem witness_EncodeOfDecode : decodeCmd 0x00030032 = .op (.decode true true 3) := by decide
theorem witness_IllegalWordInfoBits :
    wellFormedWord 0x00000004 = false ∧ wellFormedWord 0x00000080 = false ∧ wellFormedWord 0x00000010 = false
      ∧ wellFormedWord 0xFFFFFFFF = false := by decide
theorem witness_AssemblerLinesGiveCommandWords : 65535 ≤ 65535 ∧ 65536 > 65535 := by decide
theorem witness_StepRunsDecodedCommand :
    { small with pending := [.regWrite 0x00 2, .reset] }.pending = .regWrite 0x00 2 :: [.reset]
      ∧ decodeCmd 2 = .op (.decode false false 0) := by decide
theorem witness_IllegalWordIsReported :
    { small with pending := [.regWrite 0x00 4] }.pending = .regWrite 0x00 4 :: [] ∧ decodeCmd 4 = .illegal 1 := by decide
theorem witness_IdleCoreHoldsItsState : State.reset.pending = [] := by decide
theorem witness_StatusReadGivesFields :
    { small with pending := [.regRead 0x04, .reset] }.pending = .regRead 0x04 :: [.reset] := by decide
theorem witness_WindowReadsReturnRegisters :
    { small with pending := [.regRead 0x38] }.pending = .regRead 0x38 :: []
      ∧ (0x38, 0x50434D01) ∈ [((0x38 : Nat), (0x50434D01 : Word))] := by decide
theorem witness_WindowReadsReturnRegisters_unmapped :
    { small with pending := [.regRead 0x3C] }.pending = .regRead 0x3C :: [] := by decide
/-- FMT0 of a validated descriptor. -/
theorem witness_WindowReadsReturnRegisters_fmt0 :
    { ready 24 2 true with pending := [.regRead 0x08] }.pending = .regRead 0x08 :: []
      ∧ (ready 24 2 true).status.valid = true := by decide
/-- It reads as BITS = 24, ORDER = 1, SIGNED = 0 (10 R28). -/
theorem test_fmt0_reads_when_validated :
    ∃ t, step { ready 24 2 true with pending := [.regRead 0x08] } = .next t ∧ t.readData = some (.word 0x118) :=
  ⟨_, rfl, by decide⟩
theorem witness_ReadOnlyWritesAreIgnored :
    { small with pending := [.regWrite 0x04 0xFFFFFFFF] }.pending = .regWrite 0x04 0xFFFFFFFF :: []
      ∧ 0x04 ∈ [0x04, 0x24, 0x28, 0x2C, 0x30, 0x34, 0x38, 0x3C] := by decide
theorem witness_Fmt0WriteStoresItsFields :
    { small with pending := [.regWrite 0x08 0xFFFFFFFF] }.pending = .regWrite 0x08 0xFFFFFFFF :: [] := by decide
theorem witness_DescriptorWriteInvalidates :
    ∀ off ∈ [0x08, 0x0C, 0x10, 0x14], { ready 16 2 false with pending := [.regWrite off 0] }.status.valid = true
      ∧ { ready 16 2 false with pending := [.regWrite off 0] }.pending = .regWrite off 0 :: [] := by decide
theorem witness_OperandWritesStoreTheWord :
    ∀ off ∈ [0x18, 0x1C, 0x20], { ready 16 2 false with pending := [.regWrite off 0xFFFFFFFF] }.pending
      = .regWrite off 0xFFFFFFFF :: [] := by decide
theorem witness_MisplacedRegisterAccessIsRefused :
    ∀ off ∈ [0x01, 0x3E, 0x40], ¬ (off % 4 = 0 ∧ off ≤ 0x3C)
      ∧ { small with pending := [.regRead off] }.pending = .regRead off :: []
      ∧ { small with pending := [.regWrite off 0] }.pending = .regWrite off 0 :: [] := by decide
/-- The last cell of a space and the first address beyond it, for each of the four accesses. -/
theorem witness_HostMemoryWriteChangesOneCell :
    (7 : Word).toNat < small.byteSize ∧ ¬ (8 : Word).toNat < small.byteSize
      ∧ (7 : Word).toNat < small.sampleSize ∧ ¬ (8 : Word).toNat < small.sampleSize
      ∧ { small with pending := [.byteWrite 7 1] }.pending = .byteWrite 7 1 :: []
      ∧ { small with pending := [.sampleWrite 8 1] }.pending = .sampleWrite 8 1 :: [] := by decide
theorem witness_HostMemoryReadReturnsTheCell :
    (7 : Word).toNat < small.byteSize ∧ ¬ (8 : Word).toNat < small.sampleSize
      ∧ { small with pending := [.byteRead 7] }.pending = .byteRead 7 :: []
      ∧ { small with pending := [.sampleRead 8] }.pending = .sampleRead 8 :: [] := by decide
theorem witness_ResetEventKeepsMemories :
    { withBytes 8 1 false [1, 2] with pending := [.reset] }.pending = .reset :: [] := by decide
theorem witness_FaultingCommandWritesNoMemory :
    ∃ t, exec (.decode false false 0) State.reset = .next t ∧ t.status.err = true := ⟨_, rfl, by decide⟩
theorem witness_CommandsWriteOnlyTheirSpace :
    (∃ t, exec (.decode false false 0) (withBytes 8 1 false [1]) = .next t)
      ∧ ∃ t, exec (.encode false false 0) (withCells 8 1 false [0]) = .next t := ⟨⟨_, rfl⟩, ⟨_, rfl⟩⟩
theorem witness_RateAndSignedAreNeverRead : ∃ t, exec .validate (ready 16 1 false) = .next t := ⟨_, rfl⟩
theorem witness_OrderHasNoEffectAtEightBits :
    (withBytes 8 1 true [1]).bits = 8 ∧ ∃ t, exec (.decode true false 0) (withBytes 8 1 true [1]) = .next t :=
  ⟨rfl, _, rfl⟩
theorem witness_StepKeepsInvariant :
    State.Inv { withBytes 16 1 false [0x34, 0x12, 0x56] with pending := [.regWrite 0x00 2] }
      ∧ ∃ t, step { withBytes 16 1 false [0x34, 0x12, 0x56] with pending := [.regWrite 0x00 2] } = .next t :=
  ⟨by decide, _, rfl⟩
theorem witness_ValidIsSetOnlyByValidate :
    (∃ t, step { State.reset with bits := 16, channels := 1, pending := [.regWrite 0x00 1] } = .next t
        ∧ t.status.valid = true)
      ∧ ∃ t, step { ready 16 1 false with pending := [.regWrite 0x18 5] } = .next t ∧ t.status.valid = true :=
  ⟨⟨_, rfl, by decide⟩, ⟨_, rfl, by decide⟩⟩
theorem witness_ConversionAfterDescriptorWriteFaults :
    { ready 16 1 false with pending := [.regWrite 0x10 0, .regWrite 0x00 3] }.pending
        = .regWrite 0x10 0 :: .regWrite 0x00 3 :: []
      ∧ 0x10 ∈ [0x08, 0x0C, 0x10, 0x14] ∧ decodeCmd 3 = .op (.encode false false 0)
      ∧ Instr.encode false false 0 ≠ .nop ∧ Instr.encode false false 0 ≠ .validate := by decide
theorem witness_ValidateAcceptsLegalFormat :
    ∀ W ∈ [8, 16, 24, 32], isWidth (ready W 1 false).bits.toNat ∧ 1 ≤ (ready W 1 false).channels.toNat
      ∧ 1 ≤ (ready W 65535 false).channels.toNat := by decide
theorem witness_ValidateRejectsIllegalFormat :
    ¬ (isWidth (ready 40 1 false).bits.toNat ∧ 1 ≤ (ready 40 1 false).channels.toNat)
      ∧ ¬ (isWidth (ready 16 0 false).bits.toNat ∧ 1 ≤ (ready 16 0 false).channels.toNat) := by decide

/-- One state for each branch of the order: not validated, channel 1 of 1, a partial frame under STRICT, a source past
the top, a destination past the top. -/
theorem witness_DecodeFaultsInOrder :
    (State.reset.formatAgrees ∧ ¬ decodeReady false 0 State.reset)
      ∧ ((ready 16 1 false).formatAgrees ∧ ¬ decodeReady false 1 (ready 16 1 false))
      ∧ ((withBytes 16 1 false [1, 2, 3]).formatAgrees ∧ ¬ decodeReady true 0 (withBytes 16 1 false [1, 2, 3]))
      ∧ (State.formatAgrees { ready 16 1 false with src := 0xFFFFFFFF, len := 2 }
        ∧ ¬ decodeReady false 0 { ready 16 1 false with src := 0xFFFFFFFF, len := 2 })
      ∧ ¬ decodeReady false 0 { ready 16 1 false with dst := 0xFFFFFFFF, len := 4 } := by decide
theorem witness_DecodeCompletesWithItsFrame :
    (withBytes 24 2 true [0x80, 0, 0, 0x7F, 0xFF, 0xFF]).formatAgrees
      ∧ decodeReady true 1 (withBytes 24 2 true [0x80, 0, 0, 0x7F, 0xFF, 0xFF])
      ∧ decodeReady false 0 (withBytes 24 2 true [0x80, 0, 0, 0x7F, 0xFF]) := by decide
theorem witness_DecodeEightBitCodes :
    (withBytes 8 3 false [0, 0x80, 0xFF, 0x7F, 0x81, 1]).bits = 8
      ∧ decodeReady true 2 (withBytes 8 3 false [0, 0x80, 0xFF, 0x7F, 0x81, 1]) := by decide
theorem witness_DecodeLittleEndianCodes :
    ∀ W ∈ [16, 24, 32], ((withBytes W 1 false [0, 0, 0, 0x80]).width = 16
        ∨ (withBytes W 1 false [0, 0, 0, 0x80]).width = 24 ∨ (withBytes W 1 false [0, 0, 0, 0x80]).width = 32)
      ∧ (withBytes W 1 false [0, 0, 0, 0x80]).order = false
      ∧ decodeReady false 0 (withBytes W 1 false [0, 0, 0, 0x80]) := by decide
theorem witness_DecodeBigEndianCodes :
    ∀ W ∈ [16, 24, 32], ((withBytes W 1 true [0x80, 0, 0, 0]).width = 16
        ∨ (withBytes W 1 true [0x80, 0, 0, 0]).width = 24 ∨ (withBytes W 1 true [0x80, 0, 0, 0]).width = 32)
      ∧ (withBytes W 1 true [0x80, 0, 0, 0]).order = true
      ∧ decodeReady false 0 (withBytes W 1 true [0x80, 0, 0, 0]) := by decide
theorem witness_DecodeNormalizedIsExact :
    (withBytes 32 1 false [0, 0, 0, 0x80]).formatAgrees
      ∧ decodeReady true 0 (withBytes 32 1 false [0, 0, 0, 0x80])
      ∧ 0 < (withBytes 32 1 false [0, 0, 0, 0x80]).len.toNat / (withBytes 32 1 false [0, 0, 0, 0x80]).frameBytes := by
  decide
theorem witness_DecodedCodesAreExactlyTheRange : isWidth 8 ∧ isWidth 16 ∧ isWidth 24 ∧ isWidth 32 := by decide
/-- Stereo: the second channel's byte differs, the first channel's does not. -/
theorem witness_DecodeReadsOnlyItsChannel :
    (∀ i < (withBytes 8 2 false [5, 6]).len.toNat / (withBytes 8 2 false [5, 6]).frameBytes,
      ∀ j < (withBytes 8 2 false [5, 6]).sampleBytes,
        State.memRead { withBytes 8 2 false [5, 6] with bytes := [(0x10, 5), (0x11, 9)] }
            ((withBytes 8 2 false [5, 6]).src.toNat + i * (withBytes 8 2 false [5, 6]).frameBytes
              + (0 : BitVec 16).toNat * (withBytes 8 2 false [5, 6]).sampleBytes + j)
          = (withBytes 8 2 false [5, 6]).memRead
            ((withBytes 8 2 false [5, 6]).src.toNat + i * (withBytes 8 2 false [5, 6]).frameBytes
              + (0 : BitVec 16).toNat * (withBytes 8 2 false [5, 6]).sampleBytes + j))
      ∧ ∃ t, exec (.decode true false 0) (withBytes 8 2 false [5, 6]) = .next t := ⟨by decide, _, rfl⟩
theorem witness_StrictHasNoEffectOnWholeFrames :
    (withBytes 16 1 false [1, 2]).len.toNat % (withBytes 16 1 false [1, 2]).frameBytes = 0 := by decide

/-- One state for each branch: not validated, channel 1 of 1, a source past the top, a destination past the top. -/
theorem witness_EncodeFaultsInOrder :
    (State.reset.formatAgrees ∧ ¬ encodeReady 0 State.reset)
      ∧ ((ready 16 1 false).formatAgrees ∧ ¬ encodeReady 1 (ready 16 1 false))
      ∧ (State.formatAgrees { ready 16 2 false with src := 0xFFFFFFFF, len := 2 }
        ∧ ¬ encodeReady 0 { ready 16 2 false with src := 0xFFFFFFFF, len := 2 })
      ∧ ¬ encodeReady 0 { ready 16 2 false with dst := 0xFFFFFFFA, len := 2 } := by decide

/-- -1.0 is IN, 1.0 is HIGH, -1.5 LOW; both infinities and a NaN. -/
theorem witness_ClassFollowsTheValue :
    isFinite 0xBFF0000000000000 = true ∧ classify 0xBFF0000000000000 = .inside
      ∧ isFinite 0x3FF0000000000000 = true ∧ classify 0x3FF0000000000000 = .high
      ∧ isFinite 0xBFF8000000000000 = true ∧ classify 0xBFF8000000000000 = .low
      ∧ isFinite 0xFFF0000000000000 = false ∧ isNaN 0xFFF0000000000000 = false
      ∧ isNaN 0x7FF0000000000001 = true := by decide
/-- -0.004, -1.0 and 1 - 2^-53 are IN. -/
theorem witness_QuantizationTruncatesTowardZero :
    isWidth 8 ∧ classify 0xBF70624DD2F1A9FC = .inside ∧ classify 0xBFF0000000000000 = .inside
      ∧ classify 0x3FEFFFFFFFFFFFFF = .inside := by decide
theorem realOf_minus_three_halves : realOf 0xBFF8000000000000 = -3 / 2 := by
  have hs : f64Sign 0xBFF8000000000000 = true := by decide
  have hx : f64Exp 0xBFF8000000000000 = 1023 := by decide
  have hf : f64Frac 0xBFF8000000000000 = 2 ^ 51 := by decide
  rw [realOf, hs, hx, hf]
  norm_num
theorem realOf_one : realOf 0x3FF0000000000000 = 1 := by
  have hs : f64Sign 0x3FF0000000000000 = false := by decide
  have hx : f64Exp 0x3FF0000000000000 = 1023 := by decide
  have hf : f64Frac 0x3FF0000000000000 = 0 := by decide
  rw [realOf, hs, hx, hf]
  norm_num
/-- A NaN, -1.5, 1.0 and both infinities. -/
theorem witness_OutOfRangeSamplesClip :
    isNaN 0x7FF8000000000000 = true
      ∧ (isFinite 0xBFF8000000000000 = true ∧ realOf 0xBFF8000000000000 < -1)
      ∧ (isFinite 0x3FF0000000000000 = true ∧ 1 ≤ realOf 0x3FF0000000000000)
      ∧ (isFinite 0x7FF0000000000000 = false ∧ isNaN 0x7FF0000000000000 = false)
      ∧ isFinite 0xFFF0000000000000 = false ∧ isNaN 0xFFF0000000000000 = false := by
  refine ⟨by decide, ⟨by decide, ?_⟩, ⟨by decide, ?_⟩, by decide, by decide⟩
  · rw [realOf_minus_three_halves]; norm_num
  · rw [realOf_one]
/-- SMIN - 1, SMIN, SMAX and SMAX + 1 at 16 bits. -/
theorem witness_IntegerSamplesClip :
    isWidth 16 ∧ (0xFFFFFFFFFFFF7FFF : Cell).toInt < sMin 16 ∧ sMin 16 ≤ (0xFFFFFFFFFFFF8000 : Cell).toInt
      ∧ (0xFFFFFFFFFFFF8000 : Cell).toInt ≤ sMax 16 ∧ (0x7FFF : Cell).toInt ≤ sMax 16
      ∧ sMax 16 < (0x8000 : Cell).toInt := by decide
theorem witness_QuantizationErrorBound :
    ∃ q : ℚ, isWidth 8 ∧ classify 0xBF70624DD2F1A9FC = .inside
      ∧ q = ((quantize false 8 0xBF70624DD2F1A9FC).1 : ℚ) / 2 ^ (8 - 1) := ⟨_, by decide, by decide, rfl⟩
/-- A clipped sample and one that is not. -/
theorem witness_EncodeReportsItsClipping :
    (withCells 16 2 false [0, 0x7FF8000000000000]).formatAgrees
      ∧ encodeReady 1 (withCells 16 2 false [0, 0x7FF8000000000000])
      ∧ (inputCode false (withCells 16 2 false [0, 0x7FF8000000000000]) 0).2 = false
      ∧ (inputCode false (withCells 16 2 false [0, 0x7FF8000000000000]) 1).2 = true := by decide
theorem witness_EncodeEightBitBytes :
    (withCells 8 3 true [0, 1]).bits = 8 ∧ encodeReady 2 (withCells 8 3 true [0, 1]) := by decide
theorem witness_EncodeMultiByteBytes :
    ∀ W ∈ [16, 24, 32], ((withCells W 2 false [0x1234]).width = 16 ∨ (withCells W 2 false [0x1234]).width = 24
        ∨ (withCells W 2 false [0x1234]).width = 32) ∧ encodeReady 1 (withCells W 2 true [0x1234])
      ∧ encodeReady 0 (withCells W 2 false [0x1234]) := by decide
theorem witness_EncodeFillsOtherChannels :
    (withCells 8 2 false [0]).formatAgrees ∧ encodeReady 1 (withCells 8 2 false [0])
      ∧ 0 < (withCells 8 2 false [0]).chans ∧ 0 ≠ (1 : BitVec 16).toNat
      ∧ (withCells 24 2 false [0]).formatAgrees ∧ encodeReady 0 (withCells 24 2 false [0]) := by decide
theorem witness_EncodeWritesOnlyItsFrames :
    (withCells 16 2 false [0]).formatAgrees ∧ encodeReady 1 (withCells 16 2 false [0])
      ∧ ¬ ((withCells 16 2 false [0]).dst.toNat ≤ 0x14 ∧ 0x14 < (withCells 16 2 false [0]).dst.toNat
        + (withCells 16 2 false [0]).len.toNat * (withCells 16 2 false [0]).frameBytes) := by decide
theorem witness_FillHasNoEffectOnOneChannel : (withCells 16 1 false [0]).channels = 1 := by decide
theorem witness_EncodeReadsOnlyItsCells :
    (∀ i < (withCells 8 1 false [5]).len.toNat,
      State.smpRead { withCells 8 1 false [5] with samples := [(0x20, 5), (0x21, 9)] }
          ((withCells 8 1 false [5]).src.toNat + i)
        = (withCells 8 1 false [5]).smpRead ((withCells 8 1 false [5]).src.toNat + i))
      ∧ ∃ t, exec (.encode true false 0) (withCells 8 1 false [5]) = .next t := ⟨by decide, _, rfl⟩
/-- The codes SMIN and 1 at 16 bits, as integers and as normalized samples (95 E7). -/
theorem witness_RoundTripIsExact :
    (withCells 16 2 true [0xFFFFFFFFFFFF8000, 1]).formatAgrees
      ∧ encodeReady 1 (withCells 16 2 true [0xFFFFFFFFFFFF8000, 1])
      ∧ (withCells 16 2 true [0xFFFFFFFFFFFF8000, 1]).len.toNat
          * (withCells 16 2 true [0xFFFFFFFFFFFF8000, 1]).frameBytes < 2 ^ 32
      ∧ (0x30 : Word).toNat + (withCells 16 2 true [0xFFFFFFFFFFFF8000, 1]).len.toNat
          ≤ (withCells 16 2 true [0xFFFFFFFFFFFF8000, 1]).sampleSize
      ∧ ∀ i < 2, ∃ k ∈ [(-32768 : Int), 1], sMin 16 ≤ k ∧ k ≤ sMax 16
        ∧ (withCells 16 2 true [0xFFFFFFFFFFFF8000, 1]).smpRead (0x20 + i) = BitVec.ofInt 64 k
        ∧ (withCells 16 2 true [0xBFF0000000000000, 0x3F00000000000000]).smpRead (0x20 + i) = normPattern 16 k := by
  decide

end Sys2Proof.Tests
end

/-! The state and its window (10_state.md): what the host's register accesses do, what every command keeps, and which
descriptor fields no command reads. -/

namespace Sys2Proof.Machine

/-! ### A host access to the register window, as one step (10 R18) -/

/-- A read of a register of the window returns its word to the host and changes nothing in the core. -/
theorem step_regRead {s : State} {off : Nat} {v : Word} {rest : List HostTxn}
    (hp : s.pending = .regRead off :: rest) (hv : windowRead off s = some v) :
    step s = .next { s with pending := rest, readData := some (.word v) } := by
  have hv' : windowRead off { s with pending := rest } = some v := hv
  rw [step_cons hp]
  simp only [perform, hostRead, hv']

/-- A write to a register other than CMD leaves what `windowWrite` gives. -/
theorem step_regWrite {s t : State} {off : Nat} {v : Word} {rest : List HostTxn}
    (hp : s.pending = .regWrite off v :: rest) (hoff : off ≠ 0x00)
    (ht : windowWrite off v { s with pending := rest } = some t) : step s = .next t := by
  rw [step_cons hp]
  simp only [perform, hostWrite, if_neg hoff, ht]

/-- The fields of the word STATUS reads as (10 R22). -/
theorem statusWord_fields (st : Status) :
    (statusWord st).getLsbD 0 = st.valid ∧ (statusWord st).getLsbD 1 = st.err ∧ (statusWord st).getLsbD 2 = st.trunc
      ∧ (statusWord st).getLsbD 3 = st.clip ∧ (statusWord st).extractLsb' 8 4 = st.errcode
      ∧ (statusWord st).extractLsb' 4 4 = 0 ∧ (statusWord st).extractLsb' 12 20 = 0 := by
  obtain ⟨valid, err, trunc, clip, errcode⟩ := st
  revert valid err trunc clip errcode
  decide

/-- A word's FMT0 fields, put together again, are the word without its reserved bits (10 R28). -/
theorem fmt0Word_of_fields {s : State} {v : Word} (hb : s.bits = v.extractLsb' 0 8) (ho : s.order = v.getLsbD 8)
    (hs : s.signed = v.getLsbD 9) : fmt0Word s = v &&& 0x3FF := by
  apply BitVec.eq_of_getLsbD_eq
  intro i hi
  rw [BitVec.getLsbD_eq_getElem (by decide)] at ho hs
  rw [fmt0Word, hb, ho, hs]
  cases h8 : v[8] <;> cases h9 : v[9] <;> interval_cases i <;> simp [bitAt, h8, h9]

/-- Settles O10: the word read is `statusWord`. -/
theorem statusReadGivesFields : Obligations.StatusReadGivesFields :=
  fun s _ hp => ⟨statusWord s.status, step_regRead hp rfl, statusWord_fields s.status⟩

/-- Settles O11: each offset's word is the one `windowRead` gives. -/
theorem windowReadsReturnRegisters : Obligations.WindowReadsReturnRegisters := by
  intro s off v rest hp
  constructor
  · intro hmem
    refine step_regRead hp ?_
    simp only [List.mem_cons, List.not_mem_nil, or_false, Prod.mk.injEq] at hmem
    rcases hmem with h | h | h | h | h | h | h | h | h | h | h | h | h | h <;> obtain ⟨rfl, rfl⟩ := h <;> rfl
  · rintro rfl
    exact ⟨fmt0Word s, step_regRead hp rfl, fmt0Word_fields s⟩

/-- Settles O12: at each of these offsets `windowWrite` gives the state back. -/
theorem readOnlyWritesAreIgnored : Obligations.ReadOnlyWritesAreIgnored := by
  intro s off v rest hp hoff
  simp only [List.mem_cons, List.not_mem_nil, or_false] at hoff
  rcases hoff with rfl | rfl | rfl | rfl | rfl | rfl | rfl | rfl <;> exact step_regWrite hp (by decide) rfl

/-- Settles O15: `windowWrite` at each of the three offsets. -/
theorem operandWritesStoreTheWord : Obligations.OperandWritesStoreTheWord := fun _ _ _ =>
  ⟨fun hp => step_regWrite hp (by decide) rfl, fun hp => step_regWrite hp (by decide) rfl,
    fun hp => step_regWrite hp (by decide) rfl⟩

/-- Settles O13: the fields stored by the write are those of the word read back. -/
theorem fmt0WriteStoresItsFields : Obligations.Fmt0WriteStoresItsFields := by
  intro s v rest hp
  refine ⟨_, step_regWrite hp (by decide) rfl, rfl, rfl, rfl, fun rest' => step_regRead rfl ?_⟩
  exact congrArg some (fmt0Word_of_fields rfl rfl rfl)

/-- Settles O14: each of the four writes is its field's update under `invalidate`. -/
theorem descriptorWriteInvalidates : Obligations.DescriptorWriteInvalidates := by
  intro s off v rest hp hoff
  simp only [List.mem_cons, List.not_mem_nil, or_false] at hoff
  rcases hoff with rfl | rfl | rfl | rfl <;>
    exact ⟨_, step_regWrite hp (by decide) rfl, rfl, rfl, rfl, rfl, rfl, rfl, rfl, rfl, rfl, rfl, rfl, rfl, rfl, rfl,
      rfl, fun _ => rfl, fun _ => rfl⟩

/-! ### What every command keeps (10 R15, section 5) -/

/-- Every command completes (60 R128, R130): none stops the machine. -/
theorem exec_completes (i : Instr) (s : State) : ∃ t, exec i s = .next t := by
  cases i with
  | nop => exact ⟨_, execNop_eq s⟩
  | validate =>
    by_cases hf : formatInfo s.width s.chans = 0
    · exact ⟨_, execValidate_of_legal hf⟩
    · exact ⟨_, execValidate_of_illegal hf⟩
  | decode rep strict ch =>
    rcases hd : decodeFault strict ch s with _ | ⟨code, info⟩
    · exact ⟨_, execDecode_of_none hd⟩
    · exact ⟨_, execDecode_of_fault hd⟩
  | encode rep fill ch =>
    rcases hd : encodeFault ch s with _ | ⟨code, info⟩
    · exact ⟨_, execEncode_of_none hd⟩
    · exact ⟨_, execEncode_of_fault hd⟩

/-- No command writes a register the host writes, or the host's side of the bus. -/
theorem exec_keeps_host {i : Instr} {s t : State} (h : exec i s = .next t) :
    sameHostRegisters s t ∧ sameHostSide s t := by
  rcases exec_cases h with ⟨-, rfl⟩ | ⟨-, -, rfl⟩ | ⟨-, -, rfl⟩ | ⟨rep, strict, ch, -, -, rfl⟩
    | ⟨rep, fill, ch, -, -, rfl⟩ | ⟨code, info, rfl, -⟩ <;> simp [sameHostRegisters, sameHostSide]

/-- Settles O21, from the two facts about `exec`. -/
theorem commandsNeverWriteHostRegisters : Obligations.CommandsNeverWriteHostRegisters := fun i s =>
  (exec_completes i s).imp fun _ h => ⟨h, exec_keeps_host h⟩

/-! ### VALID and the descriptor (10 R23, R34; 40 R84) -/

/-- The six descriptor fields are the same in both states. -/
abbrev sameDescriptor (s t : State) : Prop :=
  t.bits = s.bits ∧ t.order = s.order ∧ t.signed = s.signed ∧ t.channels = s.channels
  ∧ t.rateLo = s.rateLo ∧ t.rateHi = s.rateHi

/-- The only word that decodes to VALIDATE is 0x00000001 (30 R71). -/
theorem eq_one_of_decodeCmd_validate {w : Word} (h : decodeCmd w = .op .validate) : w = 0x00000001 := by
  unfold decodeCmd at h
  split at h
  · cases h
  · next hinfo =>
    obtain ⟨-, hrsv, hadm⟩ := cmdInfo_eq_zero.1 (by simpa using hinfo)
    split at h <;> cases h
    next hop =>
    simp only [cmdNotAdmitted, hop, Bool.or_eq_false_iff, bne_eq_false_iff_eq] at hadm
    obtain ⟨⟨⟨hrep, hstrict⟩, hfill⟩, hch⟩ := hadm
    exact word_eq (BitVec.eq_of_toNat_eq hop) hrep hstrict hfill hrsv hch

/-- A write to the window either clears VALID or leaves STATUS and the descriptor as they were (10 R34). -/
theorem windowWrite_invalidates_or_keeps {off : Nat} {v : Word} {s t : State} (h : windowWrite off v s = some t) :
    t.status.valid = false ∨ (t.status = s.status ∧ sameDescriptor s t) := by
  unfold windowWrite at h
  split at h <;> cases h
  case h_2 | h_3 | h_4 | h_5 => exact .inl rfl
  all_goals exact .inr ⟨rfl, rfl, rfl, rfl, rfl, rfl, rfl⟩

/-- A command that leaves VALID set found it set, or is a VALIDATE of a legal descriptor (10 R23). -/
theorem valid_before_exec {i : Instr} {s t : State} (h : exec i s = .next t) (hv : t.status.valid = true) :
    s.status.valid = true ∨ (i = .validate ∧ legalFormat s.width s.chans = true) := by
  rcases exec_cases h with ⟨-, rfl⟩ | ⟨hi, hf, rfl⟩ | ⟨-, -, rfl⟩ | ⟨rep, strict, ch, -, -, rfl⟩
    | ⟨rep, fill, ch, -, -, rfl⟩ | ⟨code, info, rfl, -⟩
  case inr.inl => exact .inr ⟨hi, formatInfo_eq_zero.1 hf⟩
  case inr.inr.inl => simp at hv
  all_goals exact .inl (by simpa using hv)

/-- VALID was set before the transaction `x` from `s` to `t`, or `x` runs VALIDATE on a legal descriptor; and the
descriptor stays: what 10 R23 and 40 R84 ask of a transaction that leaves VALID set. -/
def keepsOrValidates (x : HostTxn) (s t : State) : Prop :=
  (s.status.valid = true ∨ (x = .regWrite 0x00 0x00000001 ∧ legalFormat s.width s.chans = true)) ∧ sameDescriptor s t

/-- An illegal word leaves VALID as it was (60 R122), so only VALIDATE's word sets it. -/
theorem runCommand_keepsOrValidates {w : Word} {s t : State} (h : runCommand w s = .next t)
    (hv : t.status.valid = true) : keepsOrValidates (.regWrite 0x00 w) s t := by
  unfold runCommand at h
  split at h
  · next i hw =>
    obtain ⟨⟨hb, ho, hs, hc, hlo, hhi, -⟩, -⟩ := exec_keeps_host h
    refine ⟨(valid_before_exec h hv).imp_right ?_, hb, ho, hs, hc, hlo, hhi⟩
    rintro ⟨rfl, hlegal⟩
    exact ⟨by rw [eq_one_of_decodeCmd_validate hw], hlegal⟩
  · cases h
    exact ⟨.inl hv, by simp [sameDescriptor]⟩

/-- Of the transactions only a write to CMD can set VALID: a write at another offset clears it or keeps it, a reset
clears it and the others do not touch STATUS. -/
theorem perform_keepsOrValidates {x : HostTxn} {s t : State} (h : perform x s = .next t) (hv : t.status.valid = true) :
    keepsOrValidates x s t := by
  cases x with
  | regRead off =>
    simp only [perform, hostRead] at h
    split at h <;> cases h
    exact ⟨.inl hv, by simp [sameDescriptor]⟩
  | regWrite off v =>
    simp only [perform, hostWrite] at h
    split at h
    · next hoff => exact hoff ▸ runCommand_keepsOrValidates h hv
    · split at h <;> cases h
      next hw =>
      obtain hclear | ⟨hstatus, hdesc⟩ := windowWrite_invalidates_or_keeps hw
      · simp [hclear] at hv
      · exact ⟨.inl (hstatus ▸ hv), hdesc⟩
  | byteRead a | byteWrite a v | sampleRead a | sampleWrite a v =>
    simp only [perform] at h
    split at h <;> cases h
    exact ⟨.inl hv, by simp [sameDescriptor]⟩
  | reset =>
    cases h
    cases hv

/-- Settles O28: by the host's next transaction, with `perform_keepsOrValidates`. -/
theorem validIsSetOnlyByValidate : Obligations.ValidIsSetOnlyByValidate := by
  intro s t h hv
  rcases hp : s.pending with _ | ⟨x, rest⟩
  · cases (step_nil hp).symm.trans h
    exact ⟨.inl hv, by simp⟩
  · rw [step_cons hp] at h
    obtain ⟨hvalid, hdesc⟩ := perform_keepsOrValidates h hv
    refine ⟨hvalid.imp_right ?_, hdesc⟩
    rintro ⟨rfl, hlegal⟩
    exact ⟨rest, rfl, hlegal⟩

/-! ### The descriptor fields no command reads (10 R30, R31, R33) -/

/-- The same state with another byte order, sign flag and sample rate. -/
def State.redescribe (be sg : Bool) (lo hi : Word) (s : State) : State :=
  { s with order := be, signed := sg, rateLo := lo, rateHi := hi }

/-- The byte order `be` stores samples as the state's own does: it is the same, or samples are one byte (10 R30). -/
def sameStorage (be : Bool) (s : State) : Prop := s.sampleBytes = 1 ∨ be = s.order

section
variable {be : Bool} (sg : Bool) (lo hi : Word) {s : State}

/-- Where storage is the same, DECODE assembles the same codes (41 R90). -/
theorem decodedCode_redescribe (h : sameStorage be s) (ch i : Nat) :
    decodedCode (s.redescribe be sg lo hi) ch i = decodedCode s ch i := by
  change codeOfBytes be s.sampleBytes _ = codeOfBytes s.order s.sampleBytes _
  rcases h with h | h
  · simp only [h, codeOfBytes, if_true]; rfl
  · rw [h]; rfl

/-- Where storage is the same, ENCODE stores the same bytes (42 R110). -/
theorem writeSample_redescribe (h : sameStorage be s) (m : Memory 8) (a : Nat) (code : Int) :
    writeSample (s.redescribe be sg lo hi) m a code = writeSample s m a code := by
  refine Memory.fill_congr m a fun j _ => ?_
  change byteOfCode be s.width s.sampleBytes code j = byteOfCode s.order s.width s.sampleBytes code j
  rcases h with h | h
  · simp only [h, byteOfCode, if_true]
  · rw [h]

theorem writeSilence_redescribe (h : sameStorage be s) (m : Memory 8) (fb ch n : Nat) :
    writeSilence (s.redescribe be sg lo hi) m fb ch n = writeSilence s m fb ch n := by
  induction n with
  | zero => rfl
  | succ n ih => simp only [writeSilence, ih, writeSample_redescribe sg lo hi h]; rfl

theorem writeFrame_redescribe (h : sameStorage be s) (rep fill : Bool) (ch : Nat) (m : Memory 8) (i : Nat) :
    writeFrame rep fill ch (s.redescribe be sg lo hi) m i = writeFrame rep fill ch s m i := by
  simp only [writeFrame, writeSample_redescribe sg lo hi h, writeSilence_redescribe sg lo hi h]; rfl

theorem writeFrames_redescribe (h : sameStorage be s) (rep fill : Bool) (ch n : Nat) :
    writeFrames rep fill ch (s.redescribe be sg lo hi) n = writeFrames rep fill ch s n := by
  induction n with
  | zero => rfl
  | succ n ih => simp only [writeFrames, ih, writeFrame_redescribe sg lo hi h]

theorem decodeRun_redescribe (h : sameStorage be s) (rep : Bool) (ch : BitVec 16) :
    decodeRun rep ch (s.redescribe be sg lo hi) = (decodeRun rep ch s).redescribe be sg lo hi := by
  simp only [decodeRun, decodedCode_redescribe sg lo hi h]; rfl

theorem encodeRun_redescribe (h : sameStorage be s) (rep fill : Bool) (ch : BitVec 16) :
    encodeRun rep fill ch (s.redescribe be sg lo hi) = (encodeRun rep fill ch s).redescribe be sg lo hi := by
  simp only [encodeRun, writeFrames_redescribe sg lo hi h]; rfl

/-- No command reads SIGNED or the sample rate, nor the byte order beyond how samples are stored: redescribing the state
commutes with it. The checks and the derived sizes read none of these fields. -/
theorem exec_redescribe (h : sameStorage be s) {i : Instr} {t : State} (hx : exec i s = .next t) :
    exec i (s.redescribe be sg lo hi) = .next (t.redescribe be sg lo hi) := by
  have hp : sameStorage be (prologue s) := h
  rcases exec_cases hx with ⟨rfl, rfl⟩ | ⟨rfl, hf, rfl⟩ | ⟨rfl, hf, rfl⟩ | ⟨rep, strict, ch, rfl, hf, rfl⟩
    | ⟨rep, fill, ch, rfl, hf, rfl⟩ | ⟨code, info, rfl, ⟨rep, strict, ch, rfl, hf⟩ | ⟨rep, fill, ch, rfl, hf⟩⟩
  · rfl
  · exact execValidate_of_legal hf
  · exact execValidate_of_illegal hf
  · rw [← decodeRun_redescribe sg lo hi hp]
    exact execDecode_of_none hf
  · rw [← encodeRun_redescribe sg lo hi hp]
    exact execEncode_of_none hf
  · exact execDecode_of_fault hf
  · exact execEncode_of_fault hf

end

/-- Settles O24: `exec_redescribe` with the byte order the state has. -/
theorem rateAndSignedAreNeverRead : Obligations.RateAndSignedAreNeverRead := by
  intro i s t sg lo hi h
  obtain ⟨⟨-, horder, -⟩, -⟩ := exec_keeps_host h
  have ht : t.redescribe s.order sg lo hi = { t with signed := sg, rateLo := lo, rateHi := hi } := by
    rw [← horder]; rfl
  exact (exec_redescribe sg lo hi (.inr rfl) h).trans (congrArg _ ht)

/-- Settles O25: `exec_redescribe` with the sign flag and rate the state has; at 8 bits a sample is one byte. -/
theorem orderHasNoEffectAtEightBits : Obligations.OrderHasNoEffectAtEightBits := by
  intro i s t be hb h
  obtain ⟨⟨-, -, hsg, -, hlo, hhi, -⟩, -⟩ := exec_keeps_host h
  have hB : s.sampleBytes = 1 := by simp [State.sampleBytes, State.width, hb]
  have ht : t.redescribe be s.signed s.rateLo s.rateHi = { t with order := be } := by
    rw [← hsg, ← hlo, ← hhi]; rfl
  exact (exec_redescribe s.signed s.rateLo s.rateHi (.inl hB) h).trans (congrArg _ ht)

end Sys2Proof.Machine

/-! The two memories (20_memory.md): what the host's cell accesses do, and which command writes which space. -/

namespace Sys2Proof.Machine

/-! ### Reading a cell after a write of one cell (00 R12, 20 R53) -/

@[simp] theorem memRead_memWrite_same (s : State) (a : Nat) (v : Byte) : (s.memWrite a v).memRead a = v := by
  simp [State.memRead]

theorem memRead_memWrite_other (s : State) {a x : Nat} (v : Byte) (h : x ≠ a) :
    (s.memWrite a v).memRead x = s.memRead x := by
  rw [State.memRead, memWrite_bytes, Memory.get?_write_other _ _ h, ← State.memRead]

@[simp] theorem smpRead_smpWrite_same (s : State) (i : Nat) (v : Cell) : (s.smpWrite i v).smpRead i = v := by
  simp [State.smpRead]

theorem smpRead_smpWrite_other (s : State) {i x : Nat} (v : Cell) (h : x ≠ i) :
    (s.smpWrite i v).smpRead x = s.smpRead x := by
  rw [State.smpRead, smpWrite_samples, Memory.get?_write_other _ _ h, ← State.smpRead]

/-! ### The host's accesses to a cell, as one step (20 R53, R59) -/

/-- Settles O17: inside its space the step is `memWrite` or `smpWrite`, whose one cell the rules above give. -/
theorem hostMemoryWriteChangesOneCell : Obligations.HostMemoryWriteChangesOneCell := by
  intro s a b c rest
  constructor
  · intro hp
    rw [step_cons hp]
    split
    · next ha =>
      exact ⟨_, if_pos ha, memRead_memWrite_same .., fun _ hx => memRead_memWrite_other _ _ hx, rfl⟩
    · next ha => exact if_neg ha
  · intro hp
    rw [step_cons hp]
    split
    · next ha =>
      exact ⟨_, if_pos ha, smpRead_smpWrite_same .., fun _ hx => smpRead_smpWrite_other _ _ hx, rfl⟩
    · next ha => exact if_neg ha

/-- Settles O18: each is `perform`'s arm for its space; taking the transaction changes no memory and no size. -/
theorem hostMemoryReadReturnsTheCell : Obligations.HostMemoryReadReturnsTheCell :=
  fun _ _ _ => ⟨fun hp => step_cons hp, fun hp => step_cons hp⟩

/-! ### Which command writes which space (20 R45) -/

/-- A command that is no ENCODE leaves the BYTE memory as it was. -/
theorem exec_keeps_bytes {i : Instr} {s t : State} (h : exec i s = .next t)
    (hi : ∀ rep fill ch, i ≠ .encode rep fill ch) : t.bytes = s.bytes := by
  rcases exec_cases h with ⟨-, rfl⟩ | ⟨-, -, rfl⟩ | ⟨-, -, rfl⟩ | ⟨rep, strict, ch, -, -, rfl⟩
    | ⟨rep, fill, ch, hencode, -⟩ | ⟨code, info, rfl, -⟩
  case inr.inr.inr.inr.inl => exact absurd hencode (hi rep fill ch)
  all_goals simp

/-- A command that is no DECODE leaves the SAMPLE memory as it was. -/
theorem exec_keeps_samples {i : Instr} {s t : State} (h : exec i s = .next t)
    (hi : ∀ rep strict ch, i ≠ .decode rep strict ch) : t.samples = s.samples := by
  rcases exec_cases h with ⟨-, rfl⟩ | ⟨-, -, rfl⟩ | ⟨-, -, rfl⟩ | ⟨rep, strict, ch, hdecode, -⟩
    | ⟨rep, fill, ch, -, -, rfl⟩ | ⟨code, info, rfl, -⟩
  case inr.inr.inr.inl => exact absurd hdecode (hi rep strict ch)
  all_goals simp

/-- Settles O23: a memory that is unchanged reads the same in every cell. -/
theorem commandsWriteOnlyTheirSpace : Obligations.CommandsWriteOnlyTheirSpace := fun _ _ _ h =>
  ⟨fun hi => memRead_congr (exec_keeps_bytes h hi), fun hi => smpRead_congr (exec_keeps_samples h hi)⟩

end Sys2Proof.Machine

/-! The command word (30_encoding.md): the decoder and the encoder are inverse, the decoder agrees with the spec's two
spellings of a legal word, and the assembler gives the encoder's words. -/

namespace Sys2Proof.Machine

/-! ### Decoder and encoder (30 R65, R71, R72, R76) -/

/-- A word in which the decoder finds nothing wrong decodes to a command. -/
theorem exists_decodeCmd_iff {w : Word} : (∃ i, decodeCmd w = .op i) ↔ cmdInfo w = 0 := by
  unfold decodeCmd
  split
  · next h => simpa using h
  · next h =>
    refine iff_of_true ?_ (by simpa using h)
    split <;> exact ⟨_, rfl⟩

/-- A word in which the decoder finds something wrong is illegal, with what it found. -/
theorem decodeCmd_of_info_ne_zero {w : Word} (h : cmdInfo w ≠ 0) : decodeCmd w = .illegal (cmdInfo w) :=
  if_pos (by simpa using h)

/-- What a word that decodes to `i` holds in its fields (30 R71). -/
theorem decodeCmd_cases {w : Word} {i : Instr} (h : decodeCmd w = .op i) : cmdRsv w = 0 ∧
    ((cmdOp w = 0 ∧ i = .nop ∧ cmdRep w = false ∧ cmdStrict w = false ∧ cmdFill w = false ∧ cmdCh w = 0)
    ∨ (cmdOp w = 1 ∧ i = .validate ∧ cmdRep w = false ∧ cmdStrict w = false ∧ cmdFill w = false ∧ cmdCh w = 0)
    ∨ (cmdOp w = 2 ∧ i = .decode (cmdRep w) (cmdStrict w) (cmdCh w) ∧ cmdFill w = false)
    ∨ (cmdOp w = 3 ∧ i = .encode (cmdRep w) (cmdFill w) (cmdCh w) ∧ cmdStrict w = false)) := by
  have hinfo : cmdInfo w = 0 := exists_decodeCmd_iff.1 ⟨i, h⟩
  obtain ⟨hlt, hrsv, hadm⟩ := cmdInfo_eq_zero.1 hinfo
  obtain hop | hop | hop | hop : cmdOp w = 0 ∨ cmdOp w = 1 ∨ cmdOp w = 2 ∨ cmdOp w = 3 := by bv_omega
  all_goals
    simp [cmdNotAdmitted, hop] at hadm
    simp [decodeCmd, hinfo, hop] at h
    simp [hrsv, hop, h, hadm]

/-- The decoder reads back the fields the encoder wrote. -/
theorem decodeCmd_encode (i : Instr) : decodeCmd (encode i) = .op i := by
  cases i with
  | nop | validate => rfl
  | decode rep strict ch =>
    obtain ⟨hop, hrep, hstrict, hfill, hrsv, hch⟩ := fields_decode rep strict ch
    simp [decodeCmd, cmdInfo, cmdNotAdmitted, hop, hrep, hstrict, hfill, hrsv, hch]
  | encode rep fill ch =>
    obtain ⟨hop, hrep, hstrict, hfill, hrsv, hch⟩ := fields_encode rep fill ch
    simp [decodeCmd, cmdInfo, cmdNotAdmitted, hop, hrep, hstrict, hfill, hrsv, hch]

/-- A word that decodes has the fields of its command's word, and a word is its fields. -/
theorem encode_of_decodeCmd {w : Word} {i : Instr} (h : decodeCmd w = .op i) : encode i = w := by
  obtain ⟨hrsv, ⟨hop, rfl, hrep, hstrict, hfill, hch⟩ | ⟨hop, rfl, hrep, hstrict, hfill, hch⟩ | ⟨hop, rfl, hfill⟩
    | ⟨hop, rfl, hstrict⟩⟩ := decodeCmd_cases h
  · exact word_eq hop.symm hrep.symm hstrict.symm hfill.symm hrsv.symm hch.symm
  · exact word_eq hop.symm hrep.symm hstrict.symm hfill.symm hrsv.symm hch.symm
  · obtain ⟨hop', hrep', hstrict', hfill', hrsv', hch'⟩ := fields_decode (cmdRep w) (cmdStrict w) (cmdCh w)
    exact word_eq (hop'.trans hop.symm) hrep' hstrict' (hfill'.trans hfill.symm) (hrsv'.trans hrsv.symm) hch'
  · obtain ⟨hop', hrep', hstrict', hfill', hrsv', hch'⟩ := fields_encode (cmdRep w) (cmdFill w) (cmdCh w)
    exact word_eq (hop'.trans hop.symm) hrep' (hstrict'.trans hstrict.symm) hfill' (hrsv'.trans hrsv.symm) hch'

/-- Settles O2: the fields of an encoded command are its own, and the operation admits them. -/
theorem decodeOfEncode : Obligations.DecodeOfEncode := decodeCmd_encode

/-- Settles O3: the command determines every field of a word that decodes. -/
theorem encodeOfDecode : Obligations.EncodeOfDecode := fun _ _ => encode_of_decodeCmd

/-! ### The two spellings of a legal word (30 R69, R71, R74) -/

/-- The ERRINFO value of 30 R72 by the spec's own masks. -/
theorem cmdInfo_eq (w : Word) : cmdInfo w = (if opDefined w then 0 else 1) ||| (if reservedClear w then 0 else 2)
    ||| (if fieldsAdmitted w then 0 else 4) := by
  have hop : (if (cmdOp w).toNat ≥ 4 then 1 else 0 : Word) = if opDefined w then 0 else 1 := by
    simp only [opDefined, op_masked, decide_eq_true_eq, ← not_lt, ite_not]
  have hrsv : (if cmdRsv w != 0 then 2 else 0 : Word) = if reservedClear w then 0 else 2 := by
    simp only [bne_iff_ne, ne_eq, ← reservedClear_iff, ite_not]
  have hadm : (if cmdNotAdmitted w then 4 else 0 : Word) = if fieldsAdmitted w then 0 else 4 := by
    cases h : cmdNotAdmitted w <;> simp [fieldsAdmitted_eq, h]
  rw [cmdInfo, hop, hrsv, hadm]

/-- The decoder finds nothing wrong exactly in the well-formed words. -/
theorem cmdInfo_eq_zero_iff_wellFormedWord {w : Word} : cmdInfo w = 0 ↔ wellFormedWord w = true := by
  simp only [cmdInfo_eq_zero, wellFormedWord, opDefined, op_masked, fieldsAdmitted_eq, Bool.and_eq_true,
    decide_eq_true_eq, reservedClear_iff, Bool.not_eq_true', and_assoc]

/-- The word of a command is spelled by the command's row of the table. -/
theorem row_spells_encode (i : Instr) : i.row.spells (encode i) = true := by
  cases i with
  | nop => exact Laws.EncodedRow.nop.1
  | validate => exact Laws.EncodedRow.validate.1
  | decode rep strict ch => exact (Laws.EncodedRow.decode rep strict ch).1
  | encode rep fill ch => exact (Laws.EncodedRow.encode rep fill ch).1

/-- The row of every command stands in the table. -/
theorem row_mem_opcodeRows (i : Instr) : i.row ∈ opcodeRows := by
  cases i <;> simp [opcodeRows, Instr.row]

/-- A row that spells a word fixes the word under every part of its mask. -/
theorem and_mask_of_spells {r : OpcodeRow} {w m : Word} (h : r.spells w = true) (hm : r.mask &&& m = m) :
    w &&& m = r.matchBits &&& m := by
  rw [← (beq_iff_eq.1 h : w &&& r.mask = r.matchBits), BitVec.and_assoc, hm]

/-- A word that a row spells passes the three field checks, each of which looks only at bits the row fixes. -/
theorem wellFormedWord_of_legalWord {w : Word} (h : legalWord w = true) : wellFormedWord w = true := by
  simp only [legalWord, opcodeRows, List.any_cons, List.any_nil, Bool.or_false, Bool.or_eq_true] at h
  rcases h with h | h | h | h
  all_goals
    have hop := and_mask_of_spells (m := 0xF) h (by decide)
    have hrsv := and_mask_of_spells (m := 0xFF80) h (by decide)
    rw [wellFormedWord, opDefined, reservedClear, fieldsAdmitted, hop, hrsv]
  · rw [and_mask_of_spells (m := 0xFFFF0070) h (by decide)]; rfl
  · rw [and_mask_of_spells (m := 0xFFFF0070) h (by decide)]; rfl
  · rw [and_mask_of_spells (m := 0x40) h (by decide)]; rfl
  · rw [and_mask_of_spells (m := 0x20) h (by decide)]; rfl

/-- A word that decodes to a command is spelled by the command's row. -/
theorem row_spells_of_decodeCmd {w : Word} {i : Instr} (h : decodeCmd w = .op i) : i.row.spells w = true :=
  encode_of_decodeCmd h ▸ row_spells_encode i

/-- Settles O4, round the circle: what decodes is spelled by its row, what a row spells is well formed, and what is well
formed decodes. -/
theorem decoderAcceptsExactlyTableWords : Obligations.DecoderAcceptsExactlyTableWords := by
  intro w
  have hlegal : (∃ i, decodeCmd w = .op i) → legalWord w = true := fun ⟨i, hi⟩ =>
    List.any_eq_true.2 ⟨i.row, row_mem_opcodeRows i, row_spells_of_decodeCmd hi⟩
  have hdecodes : wellFormedWord w = true → ∃ i, decodeCmd w = .op i := fun h =>
    exists_decodeCmd_iff.2 (cmdInfo_eq_zero_iff_wellFormedWord.2 h)
  exact ⟨⟨hlegal, hdecodes ∘ wellFormedWord_of_legalWord⟩, ⟨wellFormedWord_of_legalWord, hlegal ∘ hdecodes⟩,
    fun _ => row_spells_of_decodeCmd⟩

/-- Settles O5: the decoder's ERRINFO value, not 0 for such a word, is that of the spec's masks. -/
theorem illegalWordInfoBits : Obligations.IllegalWordInfoBits := by
  intro w h
  have hinfo : cmdInfo w ≠ 0 := by rw [Ne, cmdInfo_eq_zero_iff_wellFormedWord, h]; decide
  exact (decodeCmd_of_info_ne_zero hinfo).trans (congrArg _ (cmdInfo_eq w))

/-! ### Assembler lines (30 R76) -/

/-- The representation suffix as the REP flag's number. -/
theorem repBit_eq_toNat (rep : Option AsmRep) : repBit rep = (decide (rep = some .dotI)).toNat := by
  rcases rep with _ | _ | _ <;> rfl

/-- Shifting a number and then taking its low 32 bits is shifting the word. -/
theorem ofNat_shiftLeft (n k : Nat) : BitVec.ofNat 32 (n <<< k) = BitVec.ofNat 32 n <<< k := by
  apply BitVec.eq_of_toNat_eq
  simp only [BitVec.toNat_shiftLeft, BitVec.toNat_ofNat, Nat.shiftLeft_eq, Nat.mod_mul_mod]

/-- The assembler's flag bit is the encoder's. -/
theorem ofNat_toNat_shiftLeft (b : Bool) (k : Nat) : BitVec.ofNat 32 (b.toNat <<< k) = flagAt b k := by
  rw [ofNat_shiftLeft]
  cases b
  · exact BitVec.zero_shiftLeft k
  · rfl

/-- The assembler's channel field is the encoder's. -/
theorem ofNat_channel_shiftLeft {ch : Nat} (h : ch ≤ 65535) :
    BitVec.ofNat 32 (ch <<< 16) = (BitVec.ofNat 16 ch).setWidth 32 <<< 16 := by
  rw [ofNat_shiftLeft, BitVec.setWidth_ofNat_of_le_of_lt (by decide) (by omega)]

/-- Settles O6: for a channel in range the assembler's sum of fields is `encode`'s, field by field. -/
theorem assemblerLinesGiveCommandWords : Obligations.AssemblerLinesGiveCommandWords := by
  refine ⟨fun rep flag ch hch => ?_, fun rep flag => ⟨rfl, rfl, fun ch hch => ?_⟩, rfl, rfl⟩
  · simp [assembleCmd, encode, hch, repBit_eq_toNat, BitVec.ofNat_or, ofNat_toNat_shiftLeft,
      ofNat_channel_shiftLeft hch]
  · have hch : ¬ ch ≤ 65535 := by omega
    exact ⟨if_neg hch, if_neg hch⟩

/-! ### Running a word (30 R73, R76; 95 section 2.2) -/

/-- Settles O1, word by word. -/
theorem specWordsDecode : Obligations.SpecWordsDecode :=
  ⟨rfl, rfl, rfl, rfl, rfl, rfl, rfl, rfl, rfl, rfl, rfl, rfl⟩

/-- Settles O7: the step performs the write, and the write runs the command. -/
theorem stepRunsDecodedCommand : Obligations.StepRunsDecodedCommand := fun _ _ _ _ hp hw =>
  (step_cons hp).trans (perform_command hw _)

end Sys2Proof.Machine

/-! The descriptor (40_descriptor.md): what NOP and VALIDATE leave, and the invariant that every step keeps. -/

namespace Sys2Proof.Machine

/-! ### What every command starts from (10 R21) -/

theorem prologue_noFault (s : State) : noFault (prologue s) := ⟨rfl, rfl, rfl⟩

theorem prologue_resultsCleared (s : State) : resultsCleared (prologue s) := ⟨rfl, rfl, rfl, rfl, rfl⟩

/-- A fault is reported beside the results it finds cleared (60 R128). -/
theorem raiseFault_reports (code : FaultCode) (info : Word) {s : State} (h : resultsCleared s) :
    reportsFault (raiseFault code info s) (faultNumber code) info :=
  ⟨rfl, rfl, rfl, h⟩

/-! ### The verdict on a descriptor (40 R81, R83) -/

/-- The descriptors 40 R81 calls legal. -/
theorem legalFormat_iff {W C : Nat} : legalFormat W C = true ↔ isWidth W ∧ 1 ≤ C := by
  simp [legalFormat, isWidth, or_assoc]

/-- The two bits of VALIDATE's ERRINFO, each set by its own defect (40 R83). -/
theorem formatInfo_bits (W C : Nat) :
    ((formatInfo W C).getLsbD 0 = true ↔ ¬ isWidth W) ∧ ((formatInfo W C).getLsbD 1 = true ↔ C = 0)
      ∧ (formatInfo W C).toNat < 4 := by
  by_cases hW : isWidth W <;> by_cases hC : C = 0 <;> simp [formatInfo, hW, hC]

/-- FRAMESZ holds the frame size of a legal descriptor: 65535 channels of 4 bytes fit its 18 bits (40 R82, 10 R42). -/
theorem acceptFormat_framesz_toNat {s : State} (hW : isWidth s.width) :
    (acceptFormat s).framesz.toNat = s.chans * (s.width / 8) := by
  have hC : s.chans < 2 ^ 16 := s.channels.isLt
  have hB : s.width / 8 ≤ 4 := by omega
  have hlt : s.chans * (s.width / 8) < 2 ^ 18 := by
    calc s.chans * (s.width / 8) ≤ s.chans * 4 := Nat.mul_le_mul_left _ hB
      _ < 2 ^ 18 := by omega
  rw [acceptFormat_framesz, BitVec.toNat_ofNat, Nat.mod_eq_of_lt hlt]

/-! ### NOP and VALIDATE (40 R79, R82, R83) -/

/-- NOP and VALIDATE touch no memory and nothing of the host's. -/
theorem exec_nop_validate_frame {i : Instr} {s t : State} (hi : i = .nop ∨ i = .validate) (h : exec i s = .next t) :
    sameHostRegisters s t ∧ sameBytes s t ∧ sameSamples s t ∧ sameHostSide s t := by
  obtain ⟨hregs, hside⟩ := exec_keeps_host h
  refine ⟨hregs, memRead_congr (exec_keeps_bytes h ?_), smpRead_congr (exec_keeps_samples h ?_), hside⟩
  all_goals rcases hi with rfl | rfl <;> simp

/-- Settles O30: NOP is the prologue. -/
theorem nopClearsTheResults : Obligations.NopClearsTheResults := by
  intro s
  have hx : exec .nop s = .next (prologue s) := execNop_eq s
  obtain ⟨hregs, hbytes, hsamples, hside⟩ := exec_nop_validate_frame (.inl rfl) hx
  exact ⟨_, hx, prologue_noFault s, prologue_resultsCleared s, ⟨rfl, rfl⟩, hregs, hbytes, hsamples, hside⟩

/-- Settles O31: VALIDATE finds nothing wrong, and FRAMESZ is wide enough for the frame size. -/
theorem validateAcceptsLegalFormat : Obligations.ValidateAcceptsLegalFormat := by
  intro s hW hC
  have hx : exec .validate s = .next (acceptFormat (prologue s)) :=
    execValidate_of_legal (formatInfo_eq_zero.2 (legalFormat_iff.2 ⟨hW, hC⟩))
  exact ⟨_, hx, rfl, acceptFormat_framesz_toNat (s := prologue s) hW, prologue_noFault s, prologue_resultsCleared s,
    exec_nop_validate_frame (.inr rfl) hx⟩

/-- Settles O32: VALIDATE's ERRINFO is not 0, and its bits name the defects. -/
theorem validateRejectsIllegalFormat : Obligations.ValidateRejectsIllegalFormat := by
  intro s h
  have hx := execValidate_of_illegal (s := s) fun h0 => h (legalFormat_iff.1 (formatInfo_eq_zero.1 h0))
  obtain ⟨hwidth, hchans, hlt⟩ := formatInfo_bits s.width s.chans
  exact ⟨_, hx, rfl, rfl, raiseFault_reports _ _ (prologue_resultsCleared s), hwidth, hchans, hlt,
    exec_nop_validate_frame (.inr rfl) hx⟩

/-! ### The result fields agree (10 R24, R27, R39 to R41; 42 R114; 60 R128) -/

/-- Without a fault and without a clipped sample the result fields agree, whatever COUNT and TRUNC hold. -/
theorem resultsAgree_of_unclipped {s : State} (hfault : noFault s) (hcnt : s.clipcnt = 0)
    (hidx : s.clipidx = 0xFFFFFFFF) (hclip : s.status.clip = false) : s.resultsAgree := by
  obtain ⟨herr, hcode, hinfo⟩ := hfault
  simp [State.resultsAgree, herr, hcode, hinfo, hcnt, hidx, hclip]

/-- Every fault has a number from 1 to 6 (60 R121). -/
theorem faultNumber_range (code : FaultCode) : faultNumber code ≠ 0#4 ∧ (faultNumber code).toNat ≤ 6 := by
  cases code <;> decide

/-- A fault raised on cleared results leaves result fields that agree. -/
theorem raiseFault_resultsAgree (code : FaultCode) (info : Word) {s : State} (h : resultsCleared s) :
    (raiseFault code info s).resultsAgree := by
  obtain ⟨hne, hle⟩ := faultNumber_range code
  obtain ⟨hcount, hcnt, hidx, htrunc, hclip⟩ := h
  simp [State.resultsAgree, hne, hle, hcount, hcnt, hidx, htrunc, hclip]

/-- CLIPCNT has room for the count: no more samples are clipped than LEN gives. -/
theorem encodeRun_clipcnt_toNat (rep fill : Bool) (ch : BitVec 16) (s : State) :
    (encodeRun rep fill ch s).clipcnt.toNat = clippedCount rep s s.len.toNat := by
  rw [encodeRun_clipcnt, BitVec.toNat_ofNat]
  exact Nat.mod_eq_of_lt ((clippedCount_le rep s _).trans_lt s.len.isLt)

/-- CLIPCNT is 0 exactly when no sample is clipped. -/
theorem encodeRun_clipcnt_eq_zero (rep fill : Bool) (ch : BitVec 16) (s : State) :
    (encodeRun rep fill ch s).clipcnt = 0 ↔ clippedCount rep s s.len.toNat = 0 := by
  rw [← encodeRun_clipcnt_toNat rep fill ch s, ← BitVec.toNat_inj]
  rfl

/-- CLIPIDX is 0xFFFFFFFF when no sample is clipped, and otherwise below LEN, so it is not 0xFFFFFFFF. -/
theorem firstClipped_eq_max_iff (rep : Bool) (s : State) :
    firstClipped rep s s.len.toNat = 0xFFFFFFFF ↔ clippedCount rep s s.len.toNat = 0 := by
  rcases firstClipped_spec rep s s.len.isLt with ⟨hnone, hidx⟩ | ⟨hsome, hidx, -, -⟩
  · exact iff_of_true hidx hnone
  · exact iff_of_false (by bv_omega) (by omega)

/-- The clip diagnostic of an ENCODE agrees with itself and with COUNT, by what CLIPCNT and CLIPIDX are (42 R114). -/
theorem encodeRun_resultsAgree (rep fill : Bool) (ch : BitVec 16) {s : State} (h : noFault s) :
    (encodeRun rep fill ch s).resultsAgree := by
  obtain ⟨herr, hcode, hinfo⟩ := h
  have hzero := encodeRun_clipcnt_eq_zero rep fill ch s
  refine ⟨by simp [herr, hcode], by simp [hcode], fun _ => hinfo, fun he => by simp [herr] at he, ?_, ?_, ?_, ?_⟩
  · rw [Ne, hzero]
    simp [clipFlag]
  · rw [hzero]
    exact firstClipped_eq_max_iff rep s
  · rw [encodeRun_clipcnt_toNat]
    exact clippedCount_le rep s _
  · rw [Ne, hzero]
    intro hne
    rcases firstClipped_spec rep s s.len.isLt with ⟨hnone, -⟩ | ⟨-, hidx, -, -⟩
    · exact absurd hnone hne
    · exact hidx

/-! ### VALID means a legal descriptor (40 R84, 10 R42) -/

theorem invalidate_formatAgrees (s : State) : (invalidate s).formatAgrees := by
  simp [State.formatAgrees]

theorem acceptFormat_formatAgrees {s : State} (h : legalFormat s.width s.chans = true) :
    (acceptFormat s).formatAgrees :=
  ⟨fun _ => ⟨h, acceptFormat_framesz_toNat (legalFormat_iff.1 h).1⟩, fun hv => by simp at hv⟩

/-! ### Both memories keep their canonical form (20 R45) -/

theorem decodeRun_memoriesWf (rep : Bool) (ch : BitVec 16) {s : State} (h : s.memoriesWf)
    (hdst : s.dst.toNat + decodeFrames s ≤ s.sampleSize) : (decodeRun rep ch s).memoriesWf := by
  obtain ⟨hbwf, hbin, hswf, hsin⟩ := h
  exact ⟨hbwf, hbin, Memory.wf_fill hswf .., Memory.within_fill hsin hdst _⟩

theorem encodeRun_memoriesWf (rep fill : Bool) {ch : BitVec 16} {s : State} (h : s.memoriesWf)
    (hch : ch.toNat < s.chans) (hdst : s.dst.toNat + s.len.toNat * s.frameBytes ≤ s.byteSize) :
    (encodeRun rep fill ch s).memoriesWf := by
  obtain ⟨hbwf, hbin, hswf, hsin⟩ := h
  exact ⟨wf_writeFrames _ _ _ _ hbwf _, within_writeFrames _ _ _ hch hbin hdst, hswf, hsin⟩

theorem memWrite_memoriesWf {s : State} (h : s.memoriesWf) {a : Nat} (ha : a < s.byteSize) (v : Byte) :
    (s.memWrite a v).memoriesWf := by
  obtain ⟨hbwf, hbin, hswf, hsin⟩ := h
  exact ⟨Memory.wf_write hbwf _ _, Memory.within_write hbin ha _, hswf, hsin⟩

theorem smpWrite_memoriesWf {s : State} (h : s.memoriesWf) {i : Nat} (hi : i < s.sampleSize) (v : Cell) :
    (s.smpWrite i v).memoriesWf := by
  obtain ⟨hbwf, hbin, hswf, hsin⟩ := h
  exact ⟨hbwf, hbin, Memory.wf_write hswf _ _, Memory.within_write hsin hi _⟩

/-! ### Every step keeps the invariant -/

/-- A command keeps the invariant: its prologue makes the result fields agree anew, only VALIDATE touches VALID, and the
range checks keep DECODE and ENCODE inside their spaces. -/
theorem exec_keeps_inv {i : Instr} {s t : State} (hs : s.Inv) (h : exec i s = .next t) : t.Inv := by
  obtain ⟨-, hformat, hmem⟩ := hs
  have hfault := prologue_noFault s
  have hclear := prologue_resultsCleared s
  rcases exec_cases h with ⟨-, rfl⟩ | ⟨-, hf, rfl⟩ | ⟨-, -, rfl⟩ | ⟨rep, strict, ch, -, hf, rfl⟩
    | ⟨rep, fill, ch, -, hf, rfl⟩ | ⟨code, info, rfl, -⟩
  · exact ⟨resultsAgree_of_unclipped hfault rfl rfl rfl, hformat, hmem⟩
  · exact ⟨resultsAgree_of_unclipped hfault rfl rfl rfl, acceptFormat_formatAgrees (formatInfo_eq_zero.1 hf), hmem⟩
  · exact ⟨raiseFault_resultsAgree _ _ hclear, invalidate_formatAgrees _, hmem⟩
  · obtain ⟨-, -, -, -, hdst⟩ := decodeFault_eq_none.1 hf
    exact ⟨resultsAgree_of_unclipped hfault rfl rfl rfl, hformat,
      decodeRun_memoriesWf rep ch (s := prologue s) hmem hdst⟩
  · obtain ⟨-, hch, -, hdst⟩ := encodeFault_eq_none.1 hf
    exact ⟨encodeRun_resultsAgree rep fill ch hfault, hformat,
      encodeRun_memoriesWf rep fill (s := prologue s) hmem hch hdst⟩
  · exact ⟨raiseFault_resultsAgree _ _ hclear, hformat, hmem⟩

theorem runCommand_keeps_inv {w : Word} {s t : State} (hs : s.Inv) (h : runCommand w s = .next t) : t.Inv := by
  unfold runCommand at h
  split at h
  · exact exec_keeps_inv hs h
  · cases h
    obtain ⟨-, hformat, hmem⟩ := hs
    exact ⟨raiseFault_resultsAgree _ _ (prologue_resultsCleared s), hformat, hmem⟩

/-- A register write keeps the invariant: at a descriptor register it clears VALID and FRAMESZ with it (10 R34), and no
other register it stores to is one the invariant speaks of. -/
theorem windowWrite_keeps_inv {off : Nat} {v : Word} {s t : State} (hs : s.Inv) (h : windowWrite off v s = some t) :
    t.Inv := by
  obtain ⟨hresults, hformat, hmem⟩ := hs
  unfold windowWrite at h
  split at h <;> cases h
  case h_2 | h_3 | h_4 | h_5 => exact ⟨hresults, invalidate_formatAgrees _, hmem⟩
  all_goals exact ⟨hresults, hformat, hmem⟩

/-- The registers' reset values agree, and the memories are the ones before (70 R142, R143). -/
theorem resetEvent_keeps_inv {s : State} (hs : s.Inv) : (resetEvent s).Inv := by
  obtain ⟨-, -, hmem⟩ := hs
  exact ⟨(by decide : State.reset.resultsAgree), (by decide : State.reset.formatAgrees), hmem⟩

/-- A transaction keeps the invariant: reads change nothing it speaks of, and a write of a cell is inside its space. -/
theorem perform_keeps_inv {x : HostTxn} {s t : State} (hs : s.Inv) (h : perform x s = .next t) : t.Inv := by
  cases x with
  | regRead off =>
    simp only [perform, hostRead] at h
    split at h <;> cases h
    exact hs
  | regWrite off v =>
    simp only [perform, hostWrite] at h
    split at h
    · exact runCommand_keeps_inv hs h
    · split at h <;> cases h
      next hw => exact windowWrite_keeps_inv hs hw
  | byteRead a | sampleRead a =>
    simp only [perform] at h
    split at h <;> cases h
    exact hs
  | byteWrite a v =>
    obtain ⟨hresults, hformat, hmem⟩ := hs
    simp only [perform] at h
    split at h <;> cases h
    next ha => exact ⟨hresults, hformat, memWrite_memoriesWf hmem ha v⟩
  | sampleWrite a v =>
    obtain ⟨hresults, hformat, hmem⟩ := hs
    simp only [perform] at h
    split at h <;> cases h
    next ha => exact ⟨hresults, hformat, smpWrite_memoriesWf hmem ha v⟩
  | reset =>
    cases h
    exact resetEvent_keeps_inv hs

/-- Settles O26: an idle step changes nothing, and every other performs the host's next transaction. -/
theorem stepKeepsInvariant : Obligations.StepKeepsInvariant := by
  intro s t hs h
  rcases hp : s.pending with _ | ⟨x, rest⟩
  · cases (step_nil hp).symm.trans h
    exact hs
  · rw [step_cons hp] at h
    exact perform_keeps_inv (s := { s with pending := rest }) hs h

end Sys2Proof.Machine

/-! The PCM decoder (41_decode.md): the fault a DECODE reports, the codes it assembles from storage bytes, the cells it
writes for them, and the bytes it reads. -/

namespace Sys2Proof.Machine

/-! ### The checks of DECODE in their order (41 R87, 60 R129) -/

section
variable {strict : Bool} {ch : BitVec 16} {s : State}

theorem decodeFault_of_not_valid (hv : s.status.valid = false) :
    decodeFault strict ch s = some (.formatNotValidated, 0) := by
  simp [decodeFault, hv]

theorem decodeFault_of_channel (hv : s.status.valid = true) (hch : s.chans ≤ ch.toNat) :
    decodeFault strict ch s = some (.channelOutOfRange, ch.setWidth 32) := by
  simp [decodeFault, hv, hch]

theorem decodeFault_of_partial_frame (hv : s.status.valid = true) (hch : ¬ s.chans ≤ ch.toNat)
    (hrem : decodeRem s ≠ 0 ∧ strict = true) :
    decodeFault strict ch s = some (.truncatedInput, BitVec.ofNat 32 (decodeRem s)) := by
  simp [decodeFault, hv, hch, hrem]

/-- The ERRINFO of the two range checks is 0 only where both regions fit. -/
theorem rangeInfo_eq_zero {srcOk dstOk : Bool} : rangeInfo srcOk dstOk = 0 ↔ srcOk = true ∧ dstOk = true := by
  revert srcOk dstOk; decide

/-- The ERRINFO of the two range checks, by the checks (20 R55). -/
theorem rangeInfo_inRange (base n size base' n' size' : Nat) :
    rangeInfo (inRange base n size) (inRange base' n' size')
      = (if base + n ≤ size then 0 else 1) ||| (if base' + n' ≤ size' then 0 else 2) := by
  simp only [rangeInfo, inRange, decide_eq_true_eq]

theorem decodeFault_of_range (hv : s.status.valid = true) (hch : ¬ s.chans ≤ ch.toNat)
    (hrem : ¬ (decodeRem s ≠ 0 ∧ strict = true))
    (hfit : ¬ (s.src.toNat + s.len.toNat ≤ s.byteSize ∧ s.dst.toNat + decodeFrames s ≤ s.sampleSize)) :
    decodeFault strict ch s = some (.addressRange, rangeInfo (inRange s.src.toNat s.len.toNat s.byteSize)
      (inRange s.dst.toNat (decodeFrames s) s.sampleSize)) := by
  have hinfo : rangeInfo (inRange s.src.toNat s.len.toNat s.byteSize)
      (inRange s.dst.toNat (decodeFrames s) s.sampleSize) ≠ 0 := by
    simpa only [ne_eq, rangeInfo_eq_zero, inRange, decide_eq_true_eq] using hfit
  simp only [decodeFault, hv, hch, hrem, bne_iff_ne.2 hinfo, Bool.not_true, Bool.false_eq_true, if_true, if_false]

/-- With no trailing partial frame the STRICT check passes whatever STRICT is (41 R88). -/
theorem decodeFault_strict_irrelevant (hrem : decodeRem s = 0) (strict' : Bool) :
    decodeFault strict ch s = decodeFault strict' ch s := by
  simp [decodeFault, hrem]

/-- A fault changes nothing beside the result fields, which the prologue cleared (60 R128). -/
theorem raiseFault_faultedFrom (code : FaultCode) (info : Word) (s : State) :
    faultedFrom s (raiseFault code info (prologue s)) (faultNumber code) info :=
  ⟨raiseFault_reports code info (prologue_resultsCleared s), ⟨rfl, rfl, rfl, rfl, rfl, rfl, rfl, rfl, rfl, rfl, rfl⟩,
    ⟨rfl, rfl⟩, fun _ => rfl, fun _ => rfl, ⟨rfl, rfl⟩⟩

/-- A DECODE whose checks find a fault completes and reports it. -/
theorem exec_decode_of_fault (rep : Bool) {code : FaultCode} {info : Word}
    (h : decodeFault strict ch s = some (code, info)) :
    ∃ t, exec (.decode rep strict ch) s = .next t ∧ faultedFrom s t (faultNumber code) info :=
  ⟨_, execDecode_of_fault h, raiseFault_faultedFrom code info s⟩

/-- A DECODE that is ready runs. -/
theorem exec_decode_of_ready (rep : Bool) (h : decodeReady strict ch s) :
    exec (.decode rep strict ch) s = .next (decodeRun rep ch (prologue s)) :=
  execDecode_of_none (decodeFault_of_ready h)

end

/-- Settles O33: check by check, the first that fails gives the fault. -/
theorem decodeFaultsInOrder : Obligations.DecodeFaultsInOrder := by
  intro rep strict ch s _ hnot
  rw [← rangeInfo_inRange]
  split_ifs with hv hch hrem
  · exact exec_decode_of_fault rep (decodeFault_of_not_valid hv)
  · exact exec_decode_of_fault rep (decodeFault_of_channel (by simpa using hv) hch)
  · exact exec_decode_of_fault rep (decodeFault_of_partial_frame (by simpa using hv) hch hrem)
  · have hvalid : s.status.valid = true := by simpa using hv
    have hfit : ¬ (s.src.toNat + s.len.toNat ≤ s.byteSize ∧ s.dst.toNat + decodeFrames s ≤ s.sampleSize) := by
      rintro ⟨hsrc, hdst⟩
      exact hnot ⟨hvalid, not_le.1 hch, by simpa [or_iff_not_imp_left] using hrem, hsrc, hdst⟩
    exact exec_decode_of_fault rep (decodeFault_of_range hvalid hch hrem hfit)

/-- Settles O41: the checks give the same verdict, and nothing else reads STRICT. -/
theorem strictHasNoEffectOnWholeFrames : Obligations.StrictHasNoEffectOnWholeFrames := by
  intro rep ch s hrem
  change execDecode rep true ch s = execDecode rep false ch s
  simp only [execDecode, prologue_decodeFault, decodeFault_strict_irrelevant hrem false]

/-! ### What a DECODE leaves (41 R98) -/

/-- COUNT has room for the number of frames: no more than LEN. -/
theorem decodeRun_count_toNat (rep : Bool) (ch : BitVec 16) (s : State) :
    (decodeRun rep ch s).count.toNat = s.len.toNat / s.frameBytes := by
  rw [decodeRun_count, BitVec.toNat_ofNat]
  exact Nat.mod_eq_of_lt ((Nat.div_le_self ..).trans_lt s.len.isLt)

theorem truncFlag_eq_decide (rem : Nat) : truncFlag rem = decide (rem ≠ 0) :=
  Bool.eq_iff_iff.2 (by simp [truncFlag])

/-- Settles O34: the fields of `decodeRun` after the prologue, and the range of its fill. -/
theorem decodeCompletesWithItsFrame : Obligations.DecodeCompletesWithItsFrame := by
  intro rep strict ch s _ hready
  have hx := exec_decode_of_ready rep hready
  obtain ⟨hregs, hside⟩ := exec_keeps_host hx
  exact ⟨_, hx, decodeRun_count_toNat rep ch (prologue s), truncFlag_eq_decide _, prologue_noFault s, rfl, rfl, rfl,
    fun c hc => (decodeRun_smpRead ..).trans (if_neg hc), fun _ => rfl, ⟨rfl, rfl⟩, hregs, hside⟩

/-! ### Storage bytes to codes (41 R89 to R93) -/

/-- A code depends on no byte beyond its sample. -/
theorem codeOfBytes_congr (be : Bool) {B : Nat} {b c : Nat → Byte} (h : ∀ j < B, b j = c j) :
    codeOfBytes be B b = codeOfBytes be B c := by
  unfold codeOfBytes
  split
  · next hB => rw [h 0 (by omega)]
  · rw [assemble_eq_sum, assemble_eq_sum, Finset.sum_congr rfl fun j hj => by rw [h j (Finset.mem_range.1 hj)]]

/-- The code of a sample of more than one byte: its assembled bytes, read as two's complement (41 R91 to R93). -/
theorem codeOfBytes_multi (be : Bool) {B : Nat} (hB : 1 < B) (b : Nat → Byte) :
    codeOfBytes be B b = if assemble be B b < 2 ^ (8 * B - 1) then (assemble be B b : Int)
      else (assemble be B b : Int) - 2 ^ (8 * B) := by
  rw [codeOfBytes, if_neg (by omega), signExtendFrom_eq (by omega) (assemble_lt be B b)]

/-- Every code of storage bytes lies in the range of its width (41 R100). -/
theorem codeOfBytes_range (be : Bool) {W : Nat} (hW : isWidth W) (b : Nat → Byte) :
    sMin W ≤ codeOfBytes be (W / 8) b ∧ codeOfBytes be (W / 8) b ≤ sMax W := by
  have multi {B : Nat} (hB : 1 < B) :
      sMin (8 * B) ≤ codeOfBytes be B b ∧ codeOfBytes be B b ≤ sMax (8 * B) := by
    have hlt := assemble_lt be B b
    have hpow : 2 ^ (8 * B) = 2 ^ (8 * B - 1) * 2 := by rw [← pow_succ]; congr 1; omega
    have hpow' : (2 : Int) ^ (8 * B) = (2 ^ (8 * B) : Nat) := by push_cast; rfl
    rw [codeOfBytes_multi be hB, sMin, sMax, hpow']
    split <;> omega
  rcases hW with rfl | rfl | rfl | rfl
  · have := (b 0).isLt
    simp only [codeOfBytes, sMin, sMax, Nat.reduceDiv, if_true]
    omega
  · exact multi (B := 2) (by decide)
  · exact multi (B := 3) (by decide)
  · exact multi (B := 4) (by decide)

/-- Settles O39: a code in the range is that of its own storage bytes. -/
theorem decodedCodesAreExactlyTheRange : Obligations.DecodedCodesAreExactlyTheRange := by
  intro be W k hW
  have hmin : sMin W = -2 ^ (W - 1) := by simp [sMin]
  have hmax : sMax W = 2 ^ (W - 1) - 1 := by simp [sMax]
  rw [← hmin, ← hmax]
  constructor
  · rintro ⟨b, rfl⟩
    exact codeOfBytes_range be hW b
  · rintro ⟨hk, hk'⟩
    exact ⟨byteOfCode be W (W / 8) k, codeOfBytes_byteOfCode be hW hk hk' _ fun _ _ => rfl⟩

/-- The code DECODE assembles for a sample of 16, 24 or 32 bits, by the weights of its byte order (41 R89, R91 to R93). -/
theorem decodedCode_multi {s : State} (hW : s.width = 16 ∨ s.width = 24 ∨ s.width = 32) (ch i : Nat) {u : Nat}
    (hu : u = ∑ j ∈ Finset.range s.sampleBytes, (s.memRead (sampleAddr s s.src.toNat ch i j)).toNat
      * 2 ^ (8 * bytePlace s.order s.sampleBytes j)) :
    decodedCode s ch i = if u < 2 ^ (s.width - 1) then (u : Int) else (u : Int) - 2 ^ s.width := by
  have hB : 1 < s.sampleBytes := by unfold State.sampleBytes; omega
  have hwidth : 8 * s.sampleBytes = s.width := by unfold State.sampleBytes; omega
  rw [decodedCode, codeOfBytes_multi _ hB, assemble_eq_sum, ← hu, hwidth]

/-- The code DECODE assembles lies in the range of its width. -/
theorem decodedCode_range {s : State} (hW : isWidth s.width) (ch i : Nat) :
    sMin s.width ≤ decodedCode s ch i ∧ decodedCode s ch i ≤ sMax s.width :=
  codeOfBytes_range s.order hW _

/-! ### The integer cells (41 R96) -/

/-- Settles O35: at 8 bits a frame has one byte per channel. -/
theorem decodeEightBitCodes : Obligations.DecodeEightBitCodes := by
  intro strict ch s hbits hready
  have hB : s.sampleBytes = 1 := by simp [State.sampleBytes, State.width, hbits]
  have hF : s.frameBytes = s.chans := by rw [State.frameBytes, hB, Nat.mul_one]
  refine ⟨_, exec_decode_of_ready true hready, fun i hi => ?_⟩
  rw [decodeRun_cell true ch s (hF.symm ▸ hi)]
  simp [cellOfCode, decodedCode, codeOfBytes, sampleAddr, hB, hF]

/-- Cell `i` of a DECODE with REP = 1 of 16, 24 or 32 bits: the code of the bytes assembled by their weights. -/
theorem decodeRun_integer_cell {ch : BitVec 16} {s : State} (hW : s.width = 16 ∨ s.width = 24 ∨ s.width = 32) {i : Nat}
    (hi : i < s.len.toNat / s.frameBytes) {u : Nat}
    (hu : u = ∑ j ∈ Finset.range s.sampleBytes, (s.memRead (sampleAddr s s.src.toNat ch.toNat i j)).toNat
      * 2 ^ (8 * bytePlace s.order s.sampleBytes j)) :
    (decodeRun true ch (prologue s)).smpRead (s.dst.toNat + i)
      = BitVec.ofInt 64 (if u < 2 ^ (s.width - 1) then (u : Int) else (u : Int) - 2 ^ s.width) :=
  (decodeRun_cell true ch s hi).trans (congrArg _ (decodedCode_multi hW ch.toNat i hu))

/-- Settles O36: byte `j` of a little-endian sample has weight 2^(8j). -/
theorem decodeLittleEndianCodes : Obligations.DecodeLittleEndianCodes := by
  intro strict ch s hW horder hready
  refine ⟨_, exec_decode_of_ready true hready, fun i hi u hu => decodeRun_integer_cell hW hi ?_⟩
  simpa [bytePlace, horder, sampleAddr] using hu

/-- Settles O37: byte `j` of a big-endian sample has weight 2^(8(B-1-j)). -/
theorem decodeBigEndianCodes : Obligations.DecodeBigEndianCodes := by
  intro strict ch s hW horder hready
  refine ⟨_, exec_decode_of_ready true hready, fun i hi u hu => decodeRun_integer_cell hW hi ?_⟩
  simpa [bytePlace, horder, sampleAddr] using hu

/-! ### The normalized cells (41 R94, R95) -/

theorem normPattern_zero (W : Nat) : normPattern W 0 = 0 := if_pos rfl

/-- The pattern of a nonzero code is normal: its exponent is neither that of zero nor that of an infinity. -/
theorem f64Exp_normPattern {W : Nat} (hW : W ≤ 53) {v : Int} (hv : v ≠ 0) (ha : v.natAbs ≤ 2 ^ (W - 1)) :
    f64Exp (normPattern W v) ≠ 0 ∧ f64Exp (normPattern W v) ≤ 1023 := by
  obtain ⟨e, -, -, he, -, hexp, -⟩ := normPattern_fields hW hv ha
  omega

theorem isFinite_normPattern {W : Nat} (hW : W ≤ 53) {v : Int} (ha : v.natAbs ≤ 2 ^ (W - 1)) :
    isFinite (normPattern W v) = true := by
  by_cases hv : v = 0
  · subst hv; rw [normPattern_zero]; decide
  · have := (f64Exp_normPattern hW hv ha).2
    rw [isFinite, bne_iff_ne]
    omega

/-- The significand |v| * 2^(52-e) at the exponent e - (W-1) - 52 is |v| / 2^(W-1): nothing is rounded (41 R95). -/
theorem realOf_normPattern {W : Nat} (hW : W ≤ 53) {v : Int} (ha : v.natAbs ≤ 2 ^ (W - 1)) :
    realOf (normPattern W v) = (v : ℚ) / 2 ^ (W - 1) := by
  by_cases hv : v = 0
  · subst hv
    have hsig : f64Sig 0 = 0 := by decide
    rw [normPattern_zero, realOf_eq, hsig]
    simp
  obtain ⟨e, -, -, he, hsign, hexp, hfrac⟩ := normPattern_fields hW hv ha
  have hexp0 := (f64Exp_normPattern hW hv ha).1
  have hsig : (f64Sig (normPattern W v) : ℚ) = v.natAbs * 2 ^ (52 - e) := by
    rw [f64Sig, if_neg hexp0, Nat.add_comm, hfrac]
    push_cast
    rfl
  have hpow : f64Pow (normPattern W v) = -((52 - e : Nat) : Int) - ((W - 1 : Nat) : Int) := by
    rw [f64Pow, if_neg hexp0, hexp]
    omega
  have hmag : (f64Sig (normPattern W v) : ℚ) * 2 ^ f64Pow (normPattern W v) = v.natAbs / 2 ^ (W - 1) := by
    rw [hsig, hpow, zpow_sub₀ two_ne_zero, zpow_neg, zpow_natCast, zpow_natCast]
    field_simp
  have habs : (if v < 0 then -1 else 1 : ℚ) * v.natAbs = v := by
    rw [Nat.cast_natAbs]
    split
    · next h => rw [abs_of_neg h]; push_cast; ring
    · next h => rw [abs_of_nonneg (not_lt.1 h), one_mul]
  rw [realOf_eq, hmag, hsign]
  simp only [decide_eq_true_eq]
  rw [← mul_div_assoc, habs]

/-- The quotient of a code in its range by NF lies in [-1, 1). -/
theorem code_div_normFactor_range {W : Nat} {v : Int} (h : sMin W ≤ v) (h' : v ≤ sMax W) :
    -1 ≤ (v : ℚ) / 2 ^ (W - 1) ∧ (v : ℚ) / 2 ^ (W - 1) < 1 := by
  have hlow : -(2 : ℚ) ^ (W - 1) ≤ v := by unfold sMin at h; exact_mod_cast h
  have hhigh : (v : ℚ) < 2 ^ (W - 1) := by unfold sMax at h'; exact_mod_cast Int.lt_of_le_sub_one h'
  have hpos : (0 : ℚ) < 2 ^ (W - 1) := by positivity
  exact ⟨(le_div_iff₀ hpos).2 (by rwa [neg_one_mul]), (div_lt_one hpos).2 hhigh⟩

/-- Settles O38: the cells are the pattern and the integer of one code, which lies in the range of its width. -/
theorem decodeNormalizedIsExact : Obligations.DecodeNormalizedIsExact := by
  intro strict ch s hformat hready
  obtain ⟨hlegal, -⟩ := hformat.1 hready.1
  have hW : isWidth s.width := (legalFormat_iff.1 hlegal).1
  refine ⟨_, _, exec_decode_of_ready false hready, exec_decode_of_ready true hready, fun i hi => ?_⟩
  obtain ⟨hmin, hmax⟩ := decodedCode_range hW ch.toNat i
  rw [decodeRun_cell false ch s hi, decodeRun_cell true ch s hi]
  generalize decodedCode s ch.toNat i = v at hmin hmax
  have habs := natAbs_le_of_range hmin hmax
  have hint : (BitVec.ofInt 64 v).toInt = v := toInt_ofInt_of_range (by omega) hmin hmax
  change isFinite (normPattern s.width v) = true
    ∧ realOf (normPattern s.width v) = ((BitVec.ofInt 64 v).toInt : ℚ) / 2 ^ (s.width - 1)
    ∧ -1 ≤ realOf (normPattern s.width v) ∧ realOf (normPattern s.width v) < 1
    ∧ (BitVec.ofInt 64 v = 0 → normPattern s.width v = 0)
  rw [hint, realOf_normPattern (by omega) habs]
  refine ⟨isFinite_normPattern (by omega) habs, rfl, (code_div_normFactor_range hmin hmax).1,
    (code_div_normFactor_range hmin hmax).2, fun hzero => ?_⟩
  have hv : v = 0 := by rw [← hint, hzero]; rfl
  rw [hv, normPattern_zero]

/-! ### The bytes DECODE reads (41 R89) -/

/-- The state agrees with the BYTE memory `m` on the bytes of channel `ch` in complete frames. -/
def agreesOnChannel (s : State) (m : Memory 8) (ch : Nat) : Prop :=
  ∀ i < decodeFrames s, ∀ j < s.sampleBytes,
    State.memRead { s with bytes := m } (sampleAddr s s.src.toNat ch i j) = s.memRead (sampleAddr s s.src.toNat ch i j)

theorem decodedCode_of_agreesOnChannel {s : State} {m : Memory 8} {ch i : Nat} (h : agreesOnChannel s m ch)
    (hi : i < decodeFrames s) : decodedCode { s with bytes := m } ch i = decodedCode s ch i :=
  codeOfBytes_congr s.order (h i hi)

/-- A DECODE that runs writes the same cells from `m`. -/
theorem decodeRun_of_agreesOnChannel (rep : Bool) {ch : BitVec 16} {s : State} {m : Memory 8}
    (h : agreesOnChannel s m ch.toNat) :
    decodeRun rep ch { s with bytes := m } = { decodeRun rep ch s with bytes := m } := by
  have hfill : (decodeRun rep ch { s with bytes := m }).samples = (decodeRun rep ch s).samples :=
    Memory.fill_congr _ _ fun i hi => congrArg _ (decodedCode_of_agreesOnChannel h hi)
  calc decodeRun rep ch { s with bytes := m }
      = { decodeRun rep ch s with bytes := m, samples := (decodeRun rep ch { s with bytes := m }).samples } := rfl
    _ = { decodeRun rep ch s with bytes := m } := by rw [hfill]

/-- Settles O40: the checks read no memory, and the run reads only the channel's bytes. -/
theorem decodeReadsOnlyItsChannel : Obligations.DecodeReadsOnlyItsChannel := by
  intro rep strict ch s m t hagree hx
  rcases hf : decodeFault strict ch s with _ | ⟨code, info⟩
  · cases (execDecode_of_none hf).symm.trans hx
    have hagree' : agreesOnChannel (prologue s) m ch.toNat := hagree
    rw [← decodeRun_of_agreesOnChannel rep hagree']
    exact execDecode_of_none (s := { s with bytes := m }) hf
  · cases (execDecode_of_fault hf).symm.trans hx
    exact execDecode_of_fault (s := { s with bytes := m }) hf

end Sys2Proof.Machine

/-! The PCM encoder (42_encode.md): the fault an ENCODE reports, the quantization of a sample by its exact value, the clip
diagnostic, the bytes it stores, the cells it reads, and the round trip through DECODE. -/

namespace Sys2Proof.Machine

/-! ### The checks of ENCODE in their order (42 R102, 60 R129) -/

section
variable {ch : BitVec 16} {s : State}

theorem encodeFault_of_not_valid (hv : s.status.valid = false) :
    encodeFault ch s = some (.formatNotValidated, 0) := by
  simp [encodeFault, hv]

theorem encodeFault_of_channel (hv : s.status.valid = true) (hch : s.chans ≤ ch.toNat) :
    encodeFault ch s = some (.channelOutOfRange, ch.setWidth 32) := by
  simp [encodeFault, hv, hch]

theorem encodeFault_of_range (hv : s.status.valid = true) (hch : ¬ s.chans ≤ ch.toNat)
    (hfit : ¬ (s.src.toNat + s.len.toNat ≤ s.sampleSize ∧ s.dst.toNat + s.len.toNat * s.frameBytes ≤ s.byteSize)) :
    encodeFault ch s = some (.addressRange, rangeInfo (inRange s.src.toNat s.len.toNat s.sampleSize)
      (inRange s.dst.toNat (s.len.toNat * s.frameBytes) s.byteSize)) := by
  have hinfo : rangeInfo (inRange s.src.toNat s.len.toNat s.sampleSize)
      (inRange s.dst.toNat (s.len.toNat * s.frameBytes) s.byteSize) ≠ 0 := by
    simpa only [ne_eq, rangeInfo_eq_zero, inRange, decide_eq_true_eq] using hfit
  simp only [encodeFault, hv, hch, bne_iff_ne.2 hinfo, Bool.not_true, Bool.false_eq_true, if_true, if_false]

/-- An ENCODE whose checks find a fault completes and reports it. -/
theorem exec_encode_of_fault (rep fill : Bool) {code : FaultCode} {info : Word}
    (h : encodeFault ch s = some (code, info)) :
    ∃ t, exec (.encode rep fill ch) s = .next t ∧ faultedFrom s t (faultNumber code) info :=
  ⟨_, execEncode_of_fault h, raiseFault_faultedFrom code info s⟩

/-- An ENCODE that is ready runs. -/
theorem exec_encode_of_ready (rep fill : Bool) (h : encodeReady ch s) :
    exec (.encode rep fill ch) s = .next (encodeRun rep fill ch (prologue s)) :=
  execEncode_of_none (encodeFault_of_ready h)

end

/-- Settles O42: check by check, the first that fails gives the fault. -/
theorem encodeFaultsInOrder : Obligations.EncodeFaultsInOrder := by
  intro rep fill ch s hnot
  rw [← rangeInfo_inRange]
  split_ifs with hv hch
  · exact exec_encode_of_fault rep fill (encodeFault_of_not_valid hv)
  · exact exec_encode_of_fault rep fill (encodeFault_of_channel (by simpa using hv) hch)
  · have hvalid : s.status.valid = true := by simpa using hv
    exact exec_encode_of_fault rep fill
      (encodeFault_of_range hvalid hch fun hfit => hnot ⟨hvalid, not_le.1 hch, hfit⟩)

/-! ### The class of a pattern by its value (42 R104) -/

theorem one_le_mag_iff {p : Cell} : 1 ≤ (f64Sig p : ℚ) * 2 ^ f64Pow p ↔ 1023 ≤ f64Exp p := by
  constructor
  · intro h
    by_contra hlt
    exact absurd (mag_lt_one (not_le.1 hlt)) (not_lt.2 h)
  · intro h
    by_cases hbig : 1023 < f64Exp p ∨ (f64Exp p = 1023 ∧ f64Frac p ≠ 0)
    · exact (mag_one_lt hbig).le
    · exact (mag_eq_one (by omega) (by omega)).ge

theorem one_lt_mag_iff {p : Cell} :
    1 < (f64Sig p : ℚ) * 2 ^ f64Pow p ↔ 1023 < f64Exp p ∨ (f64Exp p = 1023 ∧ f64Frac p ≠ 0) := by
  refine ⟨fun h => ?_, mag_one_lt⟩
  have hexp := one_le_mag_iff.1 h.le
  by_contra hsmall
  exact h.ne' (mag_eq_one (by omega) (by omega))

/-- The test of 42 R104 for LOW is a test of the value. -/
theorem realOf_lt_neg_one_iff {p : Cell} :
    realOf p < -1 ↔ f64Sign p = true ∧ (1023 < f64Exp p ∨ (f64Exp p = 1023 ∧ f64Frac p ≠ 0)) := by
  have hmag := f64Sig_nonneg p
  rw [realOf_eq, ← one_lt_mag_iff]
  cases f64Sign p
  · simp only [Bool.false_eq_true, if_false, false_and, iff_false]
    linarith
  · simp only [if_true, true_and]
    constructor <;> intro h <;> linarith

/-- The test of 42 R104 for HIGH is a test of the value. -/
theorem one_le_realOf_iff {p : Cell} : 1 ≤ realOf p ↔ ¬ f64Sign p = true ∧ 1023 ≤ f64Exp p := by
  have hmag := f64Sig_nonneg p
  rw [realOf_eq, ← one_le_mag_iff]
  cases f64Sign p
  · simp
  · simp only [if_true, not_true, false_and, iff_false]
    linarith

theorem classify_eq_nan_iff {p : Cell} : classify p = .nan ↔ isNaN p = true := by
  unfold classify isNaN
  split_ifs with hnan <;> simpa using hnan

/-- The class of a finite pattern by its value. -/
theorem classify_of_finite {p : Cell} (h : isFinite p = true) :
    classify p = if realOf p < -1 then .low else if 1 ≤ realOf p then .high else .inside := by
  have hexp : f64Exp p ≠ 0x7FF := by simpa [isFinite] using h
  unfold classify
  rw [if_neg fun hnan => hexp hnan.1]
  exact if_congr realOf_lt_neg_one_iff.symm rfl (if_congr one_le_realOf_iff.symm rfl rfl)

/-- The class of an infinity by its sign. -/
theorem classify_of_infinite {p : Cell} (h : isFinite p = false) (hnan : isNaN p = false) :
    classify p = if f64Sign p then .low else .high := by
  have hexp : f64Exp p = 0x7FF := by simpa [isFinite] using h
  have hfrac : f64Frac p = 0 := by simpa [isNaN, hexp] using hnan
  cases hsign : f64Sign p <;> simp [classify, hexp, hfrac, hsign]

/-- Settles O43: each test of `classify` is one of the value, and no value is both below -1 and at least 1. -/
theorem classFollowsTheValue : Obligations.ClassFollowsTheValue := by
  intro p
  refine ⟨classify_eq_nan_iff, fun h => ?_, classify_of_infinite⟩
  rw [classify_of_finite h]
  by_cases hlow : realOf p < -1
  · have hhigh : ¬ 1 ≤ realOf p := by linarith
    simp [hlow, hhigh]
  · by_cases hhigh : 1 ≤ realOf p
    · simp [hlow, hhigh]
    · simp [hlow, hhigh, not_lt.1 hlow, not_le.1 hhigh]

/-- An IN sample is finite and lies in [-1, 1). -/
theorem realOf_range_of_inside {p : Cell} (h : classify p = .inside) : -1 ≤ realOf p ∧ realOf p < 1 := by
  obtain ⟨hnan, hfinite, hinf⟩ := classFollowsTheValue p
  rcases hf : isFinite p
  · have hn : isNaN p = false := by
      rw [← Bool.not_eq_true, ← hnan, h]
      decide
    rw [hinf hf hn] at h
    split at h <;> cases h
  · exact (hfinite hf).2.2.1 h

/-! ### Truncation toward zero (00 R10) -/

theorem truncQ_of_nonneg {y : ℚ} (h : 0 ≤ y) : 0 ≤ (truncQ y : ℚ) ∧ (truncQ y : ℚ) ≤ y ∧ y < truncQ y + 1 := by
  rw [truncQ, if_pos h]
  exact ⟨by exact_mod_cast Int.floor_nonneg.2 h, Int.floor_le y, Int.lt_floor_add_one y⟩

theorem truncQ_of_nonpos {y : ℚ} (h : y ≤ 0) : (truncQ y : ℚ) ≤ 0 ∧ y ≤ truncQ y ∧ (truncQ y : ℚ) - 1 < y := by
  obtain ⟨hnonneg, hle, hlt⟩ := truncQ_of_nonneg (neg_nonneg.2 h)
  rw [truncQ_neg] at hnonneg hle hlt
  push_cast at hnonneg hle hlt
  exact ⟨by linarith, by linarith, by linarith⟩

theorem truncQ_intCast (k : ℤ) : truncQ (k : ℚ) = k := by
  unfold truncQ
  split_ifs
  · exact Int.floor_intCast k
  · rw [← Int.cast_neg, Int.floor_intCast, neg_neg]

/-- Truncation errs by less than 1. -/
theorem abs_sub_truncQ_lt_one (y : ℚ) : |y - truncQ y| < 1 := by
  rw [abs_lt]
  rcases le_total 0 y with h | h
  · obtain ⟨-, hle, hlt⟩ := truncQ_of_nonneg h
    exact ⟨by linarith, by linarith⟩
  · obtain ⟨-, hle, hlt⟩ := truncQ_of_nonpos h
    exact ⟨by linarith, by linarith⟩

/-- Truncation keeps the bounds of an interval around 0 from -n to below n. -/
theorem truncQ_range {n : ℤ} {y : ℚ} (hlow : -(n : ℚ) ≤ y) (hhigh : y < n) : -n ≤ truncQ y ∧ truncQ y ≤ n - 1 := by
  have hn : (0 : ℚ) < n := by linarith
  suffices h : -(n : ℚ) ≤ truncQ y ∧ (truncQ y : ℚ) < n from
    ⟨by exact_mod_cast h.1, Int.le_sub_one_of_lt (by exact_mod_cast h.2)⟩
  rcases le_total 0 y with h | h
  · obtain ⟨hnonneg, hle, -⟩ := truncQ_of_nonneg h
    exact ⟨by linarith, by linarith⟩
  · obtain ⟨hnonpos, hle, -⟩ := truncQ_of_nonpos h
    exact ⟨by linarith, by linarith⟩

/-! ### Quantization (42 R105 to R109, R119) -/

theorem sMin_eq (W : Nat) : sMin W = -2 ^ (W - 1) := by simp [sMin]

theorem sMax_eq (W : Nat) : sMax W = 2 ^ (W - 1) - 1 := by simp [sMax]

theorem quantize_of_inside {W : Nat} (hW : 0 < W) {p : Cell} (h : classify p = .inside) :
    quantize false W p = (truncQ (realOf p * 2 ^ (W - 1)), false) := by
  simp only [quantize, quantizeNorm, h, Bool.false_eq_true, if_false, truncScaled_eq W p hW]

theorem quantize_of_low {W : Nat} {p : Cell} (h : classify p = .low) : quantize false W p = (sMin W, true) := by
  simp [quantize, quantizeNorm, h]

theorem quantize_of_high {W : Nat} {p : Cell} (h : classify p = .high) : quantize false W p = (sMax W, true) := by
  simp [quantize, quantizeNorm, h]

theorem quantize_of_nan {W : Nat} {p : Cell} (h : classify p = .nan) : quantize false W p = (0, true) := by
  simp [quantize, quantizeNorm, h]

/-- The code of an IN sample is in the range of its width. -/
theorem truncQ_scaled_range (W : Nat) {p : Cell} (h : classify p = .inside) :
    sMin W ≤ truncQ (realOf p * 2 ^ (W - 1)) ∧ truncQ (realOf p * 2 ^ (W - 1)) ≤ sMax W := by
  obtain ⟨hlow, hhigh⟩ := realOf_range_of_inside h
  have hN : (0 : ℚ) < 2 ^ (W - 1) := by positivity
  rw [sMin_eq, sMax_eq]
  have hlow' := mul_le_mul_of_nonneg_right hlow hN.le
  have hhigh' := mul_lt_mul_of_pos_right hhigh hN
  refine truncQ_range (n := 2 ^ (W - 1)) ?_ ?_ <;> push_cast <;> linarith

/-- Settles O44: `truncScaled` is the truncation of the exact product, and the value of an IN sample lies in [-1, 1). -/
theorem quantizationTruncatesTowardZero : Obligations.QuantizationTruncatesTowardZero :=
  fun W _ hW h => ⟨quantize_of_inside (by omega) h, truncQ_scaled_range W h⟩

/-- Settles O45: by the class of the sample. -/
theorem outOfRangeSamplesClip : Obligations.OutOfRangeSamplesClip := by
  intro W p
  obtain ⟨hnan, hfinite, hinf⟩ := classFollowsTheValue p
  rw [← sMin_eq, ← sMax_eq]
  refine ⟨fun h => quantize_of_nan (hnan.2 h), fun hf h => quantize_of_low ((hfinite hf).1.2 h),
    fun hf h => quantize_of_high ((hfinite hf).2.1.2 h), fun hf hn => ?_⟩
  have hclass := hinf hf hn
  split_ifs at hclass ⊢
  · exact quantize_of_low hclass
  · exact quantize_of_high hclass

/-- The integer range check (42 R109) is that of the value k / NF. -/
theorem div_normFactor_lt_neg_one_iff {W : Nat} {k : ℤ} : (k : ℚ) / 2 ^ (W - 1) < -1 ↔ k < sMin W := by
  rw [div_lt_iff₀ (by positivity), neg_one_mul, sMin_eq]
  exact_mod_cast Iff.rfl

theorem one_le_div_normFactor_iff {W : Nat} {k : ℤ} : 1 ≤ (k : ℚ) / 2 ^ (W - 1) ↔ sMax W < k := by
  rw [one_le_div (by positivity), sMax_eq, Int.sub_one_lt_iff]
  exact_mod_cast Iff.rfl

section
variable {W : Nat} {p : Cell}

theorem quantize_integer_below (h : p.toInt < sMin W) : quantize true W p = (sMin W, true) := by
  simp [quantize, quantizeInt, h]

theorem quantize_integer_above (h : sMax W < p.toInt) : quantize true W p = (sMax W, true) := by
  have hle : ¬ p.toInt < sMin W := by
    rw [sMin_eq]
    rw [sMax_eq] at h
    have : (0 : ℤ) < 2 ^ (W - 1) := by positivity
    omega
  simp [quantize, quantizeInt, hle, h]

theorem quantize_integer_within (hlow : sMin W ≤ p.toInt) (hhigh : p.toInt ≤ sMax W) :
    quantize true W p = (p.toInt, false) := by
  simp [quantize, quantizeInt, not_lt.2 hlow, not_lt.2 hhigh]

end

/-- Settles O46: the three outcomes of the integer check, which is that of k / NF. -/
theorem integerSamplesClip : Obligations.IntegerSamplesClip := by
  rintro W p k x hW rfl rfl
  refine ⟨quantize_integer_below, quantize_integer_above, quantize_integer_within, div_normFactor_lt_neg_one_iff,
    one_le_div_normFactor_iff, ?_⟩
  rw [div_mul_cancel₀ _ (by positivity), truncQ_intCast]

/-- Settles O47: the truncation of the scaled value, scaled back. -/
theorem quantizationErrorBound : Obligations.QuantizationErrorBound := by
  rintro W p q hW h rfl
  have hN : (0 : ℚ) < 2 ^ (W - 1) := by positivity
  rw [quantize_of_inside (by omega) h]
  have hx : realOf p = realOf p * 2 ^ (W - 1) / 2 ^ (W - 1) := (mul_div_cancel_right₀ _ hN.ne').symm
  refine ⟨?_, fun hpos => ?_, fun hneg => ?_⟩
  · rw [hx, ← sub_div, abs_div, abs_of_pos hN, div_lt_div_iff_of_pos_right hN, ← hx]
    exact abs_sub_truncQ_lt_one _
  · obtain ⟨hnonneg, hle, -⟩ := truncQ_of_nonneg (mul_nonneg hpos hN.le)
    exact ⟨div_nonneg hnonneg hN.le, (div_le_iff₀ hN).2 hle⟩
  · obtain ⟨hnonpos, hle, -⟩ := truncQ_of_nonpos (mul_nonpos_of_nonpos_of_nonneg hneg hN.le)
    exact ⟨(le_div_iff₀ hN).2 hle, div_nonpos_of_nonpos_of_nonneg hnonpos hN.le⟩

/-- Every code is in the range of its width, whatever the cell holds. -/
theorem quantize_range (rep : Bool) {W : Nat} (hW : 0 < W) (p : Cell) :
    sMin W ≤ (quantize rep W p).1 ∧ (quantize rep W p).1 ≤ sMax W := by
  have hmin : sMin W ≤ 0 ∧ 0 ≤ sMax W := by
    have : (0 : ℤ) < 2 ^ (W - 1) := by positivity
    rw [sMin_eq, sMax_eq]
    omega
  cases rep
  · cases hclass : classify p with
    | nan => rw [quantize_of_nan hclass]; exact hmin
    | low => rw [quantize_of_low hclass]; exact ⟨le_rfl, hmin.1.trans hmin.2⟩
    | high => rw [quantize_of_high hclass]; exact ⟨hmin.1.trans hmin.2, le_rfl⟩
    | inside => rw [quantize_of_inside hW hclass]; exact truncQ_scaled_range W hclass
  · rcases lt_or_ge p.toInt (sMin W) with hlow | hlow
    · rw [quantize_integer_below hlow]; exact ⟨le_rfl, hmin.1.trans hmin.2⟩
    · rcases lt_or_ge (sMax W) p.toInt with hhigh | hhigh
      · rw [quantize_integer_above hhigh]; exact ⟨hmin.1.trans hmin.2, le_rfl⟩
      · rw [quantize_integer_within hlow hhigh]; exact ⟨hlow, hhigh⟩

theorem encodedCode_range (rep : Bool) {s : State} (hW : 0 < s.width) (i : Nat) :
    sMin s.width ≤ (encodedCode rep s i).1 ∧ (encodedCode rep s i).1 ≤ sMax s.width :=
  quantize_range rep hW _

/-! ### What an ENCODE reports (42 R114, R116) -/

theorem clipFlag_eq_decide (cnt : Nat) : clipFlag cnt = decide (cnt ≠ 0) :=
  Bool.eq_iff_iff.2 (by simp [clipFlag])

/-- CLIPIDX is the least clipped index where a sample is clipped (42 R114). -/
theorem firstClipped_isLeast {rep : Bool} {s : State} {n : Nat} (hn : n < 2 ^ 32) (h : clippedCount rep s n ≠ 0) :
    IsLeast { i | i < n ∧ (encodedCode rep s i).2 = true } (firstClipped rep s n).toNat := by
  rcases firstClipped_spec rep s hn with ⟨hnone, -⟩ | ⟨-, hlt, hclip, hfirst⟩
  · exact absurd hnone h
  · refine ⟨⟨hlt, hclip⟩, fun j hj => ?_⟩
    by_contra hbelow
    simpa [hfirst j (not_le.1 hbelow)] using hj.2

/-- Settles O48: the fields of `encodeRun` after the prologue, and what the clip diagnostic counts. -/
theorem encodeReportsItsClipping : Obligations.EncodeReportsItsClipping := by
  intro rep fill ch s hready
  have hx := exec_encode_of_ready rep fill hready
  obtain ⟨hregs, hside⟩ := exec_keeps_host hx
  have hzero := encodeRun_clipcnt_eq_zero rep fill ch (prologue s)
  refine ⟨_, hx, rfl, ?_, fun h => ?_, fun h => ?_, ?_, rfl, prologue_noFault s, fun _ => rfl, ⟨rfl, rfl⟩, hregs, hside⟩
  · exact (encodeRun_clipcnt_toNat ..).trans (clippedCount_eq_card ..)
  · exact (firstClipped_eq_max_iff rep (prologue s)).2 (hzero.1 h)
  · exact firstClipped_isLeast (s := prologue s) s.len.isLt (mt hzero.2 h)
  · exact (clipFlag_eq_decide _).trans (decide_eq_decide.2 (not_congr hzero.symm))

/-! ### The bytes of a sample (42 R110 to R113) -/

/-- Settles O49: at 8 bits a frame has one byte per channel, and the code fits one byte. -/
theorem encodeEightBitBytes : Obligations.EncodeEightBitBytes := by
  intro rep fill ch s hbits hready
  refine ⟨_, exec_encode_of_ready rep fill hready, fun i hi => ?_⟩
  obtain ⟨-, hch, -, -⟩ := hready
  have hW : s.width = 8 := by simp [State.width, hbits]
  have hB : s.sampleBytes = 1 := by simp [State.sampleBytes, hW]
  have hF : s.frameBytes = s.chans := by rw [State.frameBytes, hB, Nat.mul_one]
  have hbyte := encodeRun_byte rep fill hch hi (j := 0) (by omega)
  have hrange := encodedCode_range rep (s := s) (by omega) i
  rw [hB, hF, Nat.mul_one, Nat.add_zero] at hbyte
  rw [hbyte, byteOfCode_toNat_one]
  · rfl
  · simpa [hW, sMin] using hrange.1
  · simpa [hW, sMax] using hrange.2

/-- Settles O50: byte `j` of a code of more than one byte, at its place. -/
theorem encodeMultiByteBytes : Obligations.EncodeMultiByteBytes := by
  intro rep fill ch s hW hready
  refine ⟨_, exec_encode_of_ready rep fill hready, fun i hi j hj => ?_⟩
  obtain ⟨-, hch, -, -⟩ := hready
  have hB : s.sampleBytes ≠ 1 := by unfold State.sampleBytes; omega
  rw [encodeRun_byte rep fill hch hi hj, byteOfCode_toNat _ _ _ _ _ hB]
  rfl

/-! ### The other channels and the bytes outside (42 R113, R115) -/

/-- Silence, the byte of code 0 (42 R113): 0x80 at one byte per sample and 0x00 otherwise. -/
theorem byteOfCode_zero (be : Bool) {W : Nat} (hW : isWidth W) (j : Nat) :
    byteOfCode be W (W / 8) 0 j = if W = 8 then 0x80 else 0x00 := by
  rcases hW with rfl | rfl | rfl | rfl <;> simp [byteOfCode]

/-- After an ENCODE that runs, a byte no frame stores to is what it was. -/
theorem encodeRun_memRead_outside (rep fill : Bool) {ch : BitVec 16} {s : State} (hch : ch.toNat < s.chans) {a : Nat}
    (h : ∀ i < s.len.toNat, ¬ frameStores fill ch.toNat s (frameBase s i) a) :
    (encodeRun rep fill ch (prologue s)).memRead a = s.memRead a := by
  rw [encodeRun_memRead, prologue_writeFrames, prologue_len, get?_writeFrames_outside rep fill s hch h]
  rfl

/-- After an ENCODE with FILL = 1, byte `j` of another channel of frame `i` is silence. -/
theorem encodeRun_memRead_silence (rep : Bool) {ch : BitVec 16} {s : State} (hch : ch.toNat < s.chans) {i c j : Nat}
    (hi : i < s.len.toNat) (hc : c < s.chans) (hne : c ≠ ch.toNat) (hj : j < s.sampleBytes) :
    (encodeRun rep true ch (prologue s)).memRead (frameBase s i + c * s.sampleBytes + j)
      = byteOfCode s.order s.width s.sampleBytes 0 j := by
  rw [encodeRun_memRead, prologue_writeFrames, prologue_len, get?_writeFrames_silence rep s hch hi hc hne hj]
  rfl

/-- With FILL = 0 no frame stores to another channel. -/
theorem not_frameStores_other_channel {s : State} {ch c i j k : Nat} (hc : c < s.chans) (hne : c ≠ ch)
    (hj : j < s.sampleBytes) :
    ¬ frameStores false ch s (frameBase s k) (frameBase s i + c * s.sampleBytes + j) := by
  by_cases hik : i = k
  · subst hik
    rintro ⟨d, -, hd, l, hl, he⟩
    have hcd : c = d := channel_disjoint hj hl (by omega)
    exact hne (hcd.trans (hd.resolve_right Bool.false_ne_true))
  · exact not_frameStores_other hik (fill := true) (ch := ch) ⟨c, hc, .inr rfl, j, hj, rfl⟩

/-- Settles O51: with FILL = 1 the byte is one of code 0; with FILL = 0 no frame stores to it. -/
theorem encodeFillsOtherChannels : Obligations.EncodeFillsOtherChannels := by
  intro rep fill ch s hformat hready
  refine ⟨_, exec_encode_of_ready rep fill hready, ?_⟩
  rintro i hi c hc hne j hj a rfl
  obtain ⟨hvalid, hch, -, -⟩ := hready
  obtain ⟨hlegal, -⟩ := hformat.1 hvalid
  cases fill
  · exact encodeRun_memRead_outside rep false hch fun k _ => not_frameStores_other_channel hc hne hj
  · exact (encodeRun_memRead_silence rep hch hi hc hne hj).trans
      (byteOfCode_zero s.order (legalFormat_iff.1 hlegal).1 j)

/-- Settles O52: each frame stores inside its own bytes. -/
theorem encodeWritesOnlyItsFrames : Obligations.EncodeWritesOnlyItsFrames := by
  intro rep fill ch s hready
  refine ⟨_, exec_encode_of_ready rep fill hready, fun a ha => ?_⟩
  obtain ⟨-, hch, -, -⟩ := hready
  refine encodeRun_memRead_outside rep fill hch fun i hi hstore => ha ?_
  obtain ⟨hlow, hhigh⟩ := frameStores_inside hstore
  have hfirst : s.dst.toNat ≤ frameBase s i := Nat.le_add_right ..
  have hlast : frameBase s (i + 1) ≤ frameBase s s.len.toNat := frameBase_mono s hi
  exact ⟨hfirst.trans hlow, hhigh.trans_le hlast⟩

/-! ### One channel (42 R113) -/

/-- In a frame of one channel there is no other channel to silence. -/
theorem writeFrames_one_channel (rep : Bool) {s : State} (hs : s.chans = 1) (n : Nat) :
    writeFrames rep true 0 s n = writeFrames rep false 0 s n := by
  induction n with
  | zero => rfl
  | succ n ih => simp [writeFrames, writeFrame, ih, hs, writeSilence]

/-- Settles O53: the checks do not read FILL, and the only channel is 0. -/
theorem fillHasNoEffectOnOneChannel : Obligations.FillHasNoEffectOnOneChannel := by
  intro rep ch s hs
  have hchans : s.chans = 1 := by simp [State.chans, hs]
  rcases hf : encodeFault ch s with _ | ⟨code, info⟩
  · obtain ⟨-, hch, -, -⟩ := encodeFault_eq_none.1 hf
    have hch0 : ch.toNat = 0 := by omega
    have hrun : encodeRun rep true ch (prologue s) = encodeRun rep false ch (prologue s) := by
      simp only [encodeRun, hch0, writeFrames_one_channel rep (s := prologue s) hchans]
    exact (execEncode_of_none hf).trans ((congrArg _ hrun).trans (execEncode_of_none hf).symm)
  · exact (execEncode_of_fault hf).trans (execEncode_of_fault hf).symm

/-! ### The cells ENCODE reads (42 R103) -/

/-- The state agrees with the SAMPLE memory `m` on the LEN cells at SRC. -/
def agreesOnInput (s : State) (m : Memory 64) : Prop :=
  ∀ i < s.len.toNat, State.smpRead { s with samples := m } (s.src.toNat + i) = s.smpRead (s.src.toNat + i)

section
variable {s : State} {m : Memory 64}

theorem encodedCode_of_agreesOnInput (rep : Bool) (h : agreesOnInput s m) {i : Nat} (hi : i < s.len.toNat) :
    encodedCode rep { s with samples := m } i = encodedCode rep s i :=
  congrArg (quantize rep s.width) (h i hi)

theorem clippedCount_of_agreesOnInput (rep : Bool) (h : agreesOnInput s m) :
    clippedCount rep { s with samples := m } s.len.toNat = clippedCount rep s s.len.toNat :=
  List.countP_congr fun i hi => by rw [encodedCode_of_agreesOnInput rep h (List.mem_range.1 hi)]

theorem firstClipped_of_agreesOnInput (rep : Bool) (h : agreesOnInput s m) :
    firstClipped rep { s with samples := m } s.len.toNat = firstClipped rep s s.len.toNat := by
  have hfind : (List.range s.len.toNat).find? (fun i => (encodedCode rep { s with samples := m } i).2)
      = (List.range s.len.toNat).find? (fun i => (encodedCode rep s i).2) :=
    List.find?_congr fun i hi => by rw [encodedCode_of_agreesOnInput rep h (List.mem_range.1 hi)]
  simp only [firstClipped, hfind]

/-- Silence is written without reading a sample cell. -/
theorem writeSilence_samples (m : Memory 64) (b : Memory 8) (fb ch n : Nat) :
    writeSilence { s with samples := m } b fb ch n = writeSilence s b fb ch n := by
  induction n with
  | zero => rfl
  | succ n ih => simp only [writeSilence, ih]; rfl

theorem writeFrames_of_agreesOnInput (rep fill : Bool) (ch : Nat) (h : agreesOnInput s m) {n : Nat}
    (hn : n ≤ s.len.toNat) : writeFrames rep fill ch { s with samples := m } n = writeFrames rep fill ch s n := by
  induction n with
  | zero => rfl
  | succ n ih =>
    simp only [writeFrames, writeFrame, ih (by omega), encodedCode_of_agreesOnInput rep h hn, writeSilence_samples]
    rfl

/-- An ENCODE that runs gives the same bytes and the same results from `m`. -/
theorem encodeRun_of_agreesOnInput (rep fill : Bool) (ch : BitVec 16) (h : agreesOnInput s m) :
    encodeRun rep fill ch { s with samples := m } = { encodeRun rep fill ch s with samples := m } := by
  simp only [encodeRun, writeFrames_of_agreesOnInput rep fill _ h le_rfl, clippedCount_of_agreesOnInput rep h,
    firstClipped_of_agreesOnInput rep h]

end

/-- Settles O54: the checks read no memory, and the run reads only the input's cells. -/
theorem encodeReadsOnlyItsCells : Obligations.EncodeReadsOnlyItsCells := by
  intro rep fill ch s m t hagree hx
  rcases hf : encodeFault ch s with _ | ⟨code, info⟩
  · cases (execEncode_of_none hf).symm.trans hx
    have hagree' : agreesOnInput (prologue s) m := hagree
    rw [← encodeRun_of_agreesOnInput rep fill ch hagree']
    exact execEncode_of_none (s := { s with samples := m }) hf
  · cases (execEncode_of_fault hf).symm.trans hx
    exact execEncode_of_fault (s := { s with samples := m }) hf

/-! ### The round trip (42 R118) -/

/-- The input cells of an ENCODE are the cells of codes in the range of the width. -/
def holdsCodes (rep : Bool) (s : State) : Prop :=
  ∀ i < s.len.toNat, ∃ k : Int, sMin s.width ≤ k ∧ k ≤ sMax s.width
    ∧ s.smpRead (s.src.toNat + i) = cellOfCode rep s.width k

/-- The state after an ENCODE from `s` that runs, set up to decode its frames to the cells at `back`. -/
def encodedState (rep fill : Bool) (ch : BitVec 16) (s : State) (back : Word) : State :=
  { encodeRun rep fill ch (prologue s) with
    src := s.dst, dst := back, len := BitVec.ofNat 32 (s.len.toNat * s.frameBytes) }

section
variable {rep fill : Bool} {ch : BitVec 16} {s : State} {back : Word}

/-- Each input cell is that of its own code, which is not clipped. -/
theorem encodedCode_of_holdsCodes (hW : isWidth s.width) (h : holdsCodes rep s) {i : Nat} (hi : i < s.len.toNat) :
    (encodedCode rep s i).2 = false
      ∧ cellOfCode rep s.width (encodedCode rep s i).1 = s.smpRead (s.src.toNat + i) := by
  obtain ⟨k, hmin, hmax, hcell⟩ := h i hi
  have hcode : encodedCode rep s i = (k, false) := by
    rw [encodedCode, hcell, quantize_cellOfCode rep (by omega) hmin hmax]
  rw [hcode]
  exact ⟨rfl, hcell.symm⟩

theorem clippedCount_of_holdsCodes (hW : isWidth s.width) (h : holdsCodes rep s) :
    clippedCount rep s s.len.toNat = 0 :=
  List.countP_eq_zero.2 fun _ hi => by simp [(encodedCode_of_holdsCodes hW h (List.mem_range.1 hi)).1]

theorem encodedState_len_toNat (hlt : s.len.toNat * s.frameBytes < 2 ^ 32) :
    (encodedState rep fill ch s back).len.toNat = s.len.toNat * s.frameBytes := by
  rw [encodedState, BitVec.toNat_ofNat, Nat.mod_eq_of_lt hlt]

/-- The frames ENCODE wrote are as many as its samples. -/
theorem decodeFrames_encodedState (hF : 0 < s.frameBytes) (hlt : s.len.toNat * s.frameBytes < 2 ^ 32) :
    (encodedState rep fill ch s back).len.toNat / (encodedState rep fill ch s back).frameBytes = s.len.toNat := by
  rw [encodedState_len_toNat hlt]
  exact Nat.mul_div_cancel _ hF

/-- The DECODE that follows has no fault to report: its input is the frames ENCODE wrote. -/
theorem decodeReady_encodedState (strict : Bool) (h : encodeReady ch s) (hF : 0 < s.frameBytes)
    (hlt : s.len.toNat * s.frameBytes < 2 ^ 32) (hback : back.toNat + s.len.toNat ≤ s.sampleSize) :
    decodeReady strict ch (encodedState rep fill ch s back) := by
  obtain ⟨hvalid, hch, -, hdst⟩ := h
  refine ⟨hvalid, hch, .inl ?_, ?_, ?_⟩
  · rw [encodedState_len_toNat hlt]
    exact Nat.mul_mod_left ..
  · rw [encodedState_len_toNat hlt]
    exact hdst
  · rw [decodeFrames_encodedState hF hlt]
    exact hback

/-- DECODE assembles from the frames ENCODE wrote the code of each sample. -/
theorem decodedCode_encodedState (hW : isWidth s.width) (hch : ch.toNat < s.chans) {i : Nat} (hi : i < s.len.toNat) :
    decodedCode (encodedState rep fill ch s back) ch.toNat i = (encodedCode rep s i).1 := by
  obtain ⟨hmin, hmax⟩ := encodedCode_range rep (s := s) (by omega) i
  exact codeOfBytes_byteOfCode s.order hW hmin hmax _ fun _ hj => encodeRun_byte rep fill hch hi hj

end

/-- Settles O55: the bytes of each code decode to it, and its cell is the one the input held. -/
theorem roundTripIsExact : Obligations.RoundTripIsExact := by
  intro rep fill strict ch s back hformat hready hlt hback hcells
  have hcodes : holdsCodes rep s := hcells
  have ⟨hvalid, hch, _, _⟩ := hready
  obtain ⟨hlegal, -⟩ := hformat.1 hvalid
  obtain ⟨hW, hC⟩ := legalFormat_iff.1 hlegal
  have hF : 0 < s.frameBytes := Nat.mul_pos hC (by unfold State.sampleBytes; omega)
  have hframes := decodeFrames_encodedState (rep := rep) (fill := fill) (ch := ch) (back := back) hF hlt
  have hready' := decodeReady_encodedState (rep := rep) (fill := fill) strict hready hF hlt hback
  refine ⟨_, _, exec_encode_of_ready rep fill hready, ?_, prologue_noFault s, exec_decode_of_ready rep hready',
    prologue_noFault (encodedState rep fill ch s back), ?_, fun i hi => ?_⟩
  · exact (encodeRun_clipcnt_eq_zero ..).2 (clippedCount_of_holdsCodes (s := prologue s) hW hcodes)
  · exact BitVec.eq_of_toNat_eq ((decodeRun_count_toNat ..).trans hframes)
  · calc _ = cellOfCode rep s.width (decodedCode (encodedState rep fill ch s back) ch.toNat i) :=
          decodeRun_cell rep ch (encodedState rep fill ch s back) (hframes.symm ▸ hi)
      _ = cellOfCode rep s.width (encodedCode rep s i).1 := by rw [decodedCode_encodedState hW hch hi]
      _ = s.smpRead (s.src.toNat + i) := (encodedCode_of_holdsCodes hW hcodes hi).2

end Sys2Proof.Machine

/-! Faults and the idle core (60_exceptions.md): what an illegal word answers, where a command's fault is raised, and the
step with nothing to do. -/

namespace Sys2Proof.Machine

/-! ### An illegal command word (60 R122) -/

/-- A write to CMD of an illegal word runs the prologue and raises IllegalCommand (30 R73). -/
theorem perform_illegal_word {w info : Word} (h : decodeCmd w = .illegal info) (s : State) :
    perform (.regWrite 0x00 w) s = .next (raiseFault .illegalCommand info (prologue s)) := by
  simp [perform, hostWrite, runCommand, h]

/-- Settles O8: the step performs the write, and its fault changes nothing beside the result fields. -/
theorem illegalWordIsReported : Obligations.IllegalWordIsReported := fun _ _ _ _ hp hw =>
  ⟨_, (step_cons hp).trans (perform_illegal_word hw _), raiseFault_faultedFrom .illegalCommand _ _⟩

/-! ### Precise faults (60 R128) -/

/-- A command reports a fault only by raising it right after its prologue, before any write of a cell; VALIDATE clears
VALID and FRAMESZ between the two (40 R83). -/
theorem raiseFault_of_exec_err {i : Instr} {s t : State} (h : exec i s = .next t) (herr : t.status.err = true) :
    ∃ code info, t = raiseFault code info (prologue s) ∨ t = raiseFault code info (invalidate (prologue s)) := by
  rcases exec_cases h with ⟨-, rfl⟩ | ⟨-, -, rfl⟩ | ⟨-, -, rfl⟩ | ⟨rep, strict, ch, -, -, rfl⟩
    | ⟨rep, fill, ch, -, -, rfl⟩ | ⟨code, info, rfl, -⟩
  case inr.inr.inl => exact ⟨_, _, .inr rfl⟩
  case inr.inr.inr.inr.inr => exact ⟨_, _, .inl rfl⟩
  all_goals simp at herr

/-- Settles O22: neither raising the fault nor clearing VALID writes a cell, a result count, TRUNC or CLIP. -/
theorem faultingCommandWritesNoMemory : Obligations.FaultingCommandWritesNoMemory := by
  intro i s t h herr
  obtain ⟨code, info, rfl | rfl⟩ := raiseFault_of_exec_err h herr
  all_goals exact ⟨fun _ => rfl, fun _ => rfl, prologue_resultsCleared s⟩

/-! ### The idle core (60 R140) -/

/-- Settles O9: with nothing pending there is no transaction to perform (log entry 4). -/
theorem idleCoreHoldsItsState : Obligations.IdleCoreHoldsItsState := fun _ => step_nil

end Sys2Proof.Machine

/-! Reset and hazards (70_reset_and_hazards.md): what the reset event leaves, and the conversion that comes without a
validated descriptor. -/

namespace Sys2Proof.Machine

/-! ### A conversion without a validated descriptor (40 R84, 60 R124) -/

/-- A command other than NOP and VALIDATE checks VALID first, so without it the command faults with
FormatNotValidated. -/
theorem exec_conversion_of_not_valid {i : Instr} {s : State} (hn : i ≠ .nop) (hval : i ≠ .validate)
    (hv : s.status.valid = false) : ∃ t, exec i s = .next t ∧ faultedFrom s t 3 0 := by
  cases i with
  | nop => exact absurd rfl hn
  | validate => exact absurd rfl hval
  | decode rep strict ch => exact exec_decode_of_fault rep (decodeFault_of_not_valid hv)
  | encode rep fill ch => exact exec_encode_of_fault rep fill (encodeFault_of_not_valid hv)

/-! ### The descriptor hazard (70 R145) -/

/-- A write to a descriptor register clears VALID (10 R34), takes no transaction and touches neither memory. -/
theorem windowWrite_descriptor {off : Nat} (hoff : off ∈ [0x08, 0x0C, 0x10, 0x14]) (v : Word) (s : State) :
    ∃ t, windowWrite off v s = some t ∧ t.status.valid = false ∧ t.pending = s.pending ∧ t.bytes = s.bytes
      ∧ t.samples = s.samples := by
  simp only [List.mem_cons, List.not_mem_nil, or_false] at hoff
  rcases hoff with rfl | rfl | rfl | rfl <;> exact ⟨_, rfl, rfl, rfl, rfl, rfl⟩

/-- Settles O29: the write leaves VALID clear and the command next in line, which then faults. -/
theorem conversionAfterDescriptorWriteFaults : Obligations.ConversionAfterDescriptorWriteFaults := by
  intro s off v w rest i hp hoff hw hn hval
  have hcmd : off ≠ 0x00 := by
    rintro rfl
    simp at hoff
  obtain ⟨t, ht, hvalid, hpend, hbytes, hsamples⟩ :=
    windowWrite_descriptor hoff v { s with pending := .regWrite 0x00 w :: rest }
  obtain ⟨u, hu, hfault, -, -, hb, hs, -⟩ :=
    exec_conversion_of_not_valid (s := { t with pending := rest }) hn hval hvalid
  exact ⟨t, u, step_regWrite hp hcmd ht, (stepRunsDecodedCommand t w rest i hpend hw).trans hu, hfault,
    fun a => (hb a).trans (memRead_congr hbytes a), fun a => (hs a).trans (smpRead_congr hsamples a)⟩

/-! ### The reset event and the state it leaves (70 R141 to R143) -/

/-- Settles O19: the window is computed; VALID is clear at reset, so both conversions fault. -/
theorem resetWindowValues : Obligations.ResetWindowValues := by
  have hfault {i : Instr} (hn : i ≠ .nop) (hval : i ≠ .validate) :
      ∃ t, exec i State.reset = .next t ∧ reportsFault t 3 0 := by
    obtain ⟨t, ht, hreport, -⟩ := exec_conversion_of_not_valid hn hval (s := State.reset) rfl
    exact ⟨t, ht, hreport⟩
  exact ⟨by decide, by decide, fun _ _ _ => ⟨hfault nofun nofun, hfault nofun nofun⟩⟩

/-- No register of the window is among what the reset event keeps. -/
theorem resetEvent_window (s : State) : (resetEvent s).window = State.reset.window := rfl

/-- Settles O20: the step is `resetEvent`, which keeps the memories, the sizes and the host's side. -/
theorem resetEventKeepsMemories : Obligations.ResetEventKeepsMemories := fun s rest hp =>
  ⟨resetEvent { s with pending := rest }, step_cons hp, resetEvent_window _, memRead_congr rfl, smpRead_congr rfl,
    rfl, rfl, rfl, rfl⟩

/-- At reset nothing is written in either memory, so both are in canonical form. -/
theorem reset_memoriesWf : State.reset.memoriesWf := by
  have hb : State.reset.bytes = [] := rfl
  have hs : State.reset.samples = [] := rfl
  simp [State.memoriesWf, hb, hs]

/-- Settles O27: no fault and nothing clipped, VALID clear with FRAMESZ 0, and empty memories. -/
theorem resetMeetsInvariant : Obligations.ResetMeetsInvariant :=
  ⟨resultsAgree_of_unclipped ⟨rfl, rfl, rfl⟩ rfl rfl rfl, ⟨nofun, fun _ => rfl⟩, reset_memoriesWf⟩

end Sys2Proof.Machine

/-! The host's misplaced register accesses (10 R18, 93 I15, log entry 6): an offset at which the window has no register. -/

namespace Sys2Proof.Machine

/-- A read where the window has no register is refused; nothing is read. -/
theorem step_regRead_refused {s : State} {off : Nat} {rest : List HostTxn} (hp : s.pending = .regRead off :: rest)
    (hv : windowRead off { s with pending := rest } = none) : step s = .refused (.offWindow off) := by
  rw [step_cons hp]
  simp only [perform, hostRead, hv]

/-- A write where the window has no register, and that is not at CMD, is refused; nothing is written and no command
runs. -/
theorem step_regWrite_refused {s : State} {off : Nat} {v : Word} {rest : List HostTxn}
    (hp : s.pending = .regWrite off v :: rest) (hoff : off ≠ 0x00)
    (ht : windowWrite off v { s with pending := rest } = none) : step s = .refused (.offWindow off) := by
  rw [step_cons hp]
  simp only [perform, hostWrite, if_neg hoff, ht]

/-- Settles O16: the window has no register at a misplaced offset, and CMD's offset is not misplaced. -/
theorem misplacedRegisterAccessIsRefused : Obligations.MisplacedRegisterAccessIsRefused := by
  intro s off v rest hoff
  have hcmd : off ≠ 0x00 := by
    rintro rfl
    exact hoff (by decide)
  exact ⟨fun hp => step_regRead_refused hp (windowRead_none hoff _),
    fun hp => step_regWrite_refused hp hcmd (windowWrite_none hoff v _)⟩

end Sys2Proof.Machine
